-- ==== Sys2Proof/Word.lean ====
section
/-! DEFINITION. The word types of the machine: 8-bit bytes, 16-bit words, 12-bit addresses, and the index types
(spec 00_scope.md R5, R9; 10_state.md R20, R23, R24, R31). All values are unsigned (R9). -/

namespace Sys2Proof

/-- A general register's or a memory cell's value: 8 bits (V_WIDTH, R5; R30). -/
abbrev Byte := BitVec 8

/-- An instruction word, and the index register's value: 16 bits (R80; I_WIDTH, R5). -/
abbrev Word := BitVec 16

/-- A 4-bit slice of an instruction word (R81). -/
abbrev Nibble := BitVec 4

/-- The program counter's value and the nnn immediate: 12 bits (PC_WIDTH, ADDR_WIDTH, R5). -/
abbrev Addr := BitVec 12

/-- The number of a general register, 0 to 15 (R20). -/
abbrev RegIx := Fin 16

/-- A framebuffer column, 0 leftmost (R10, R31). -/
abbrev Column := Fin 64

/-- A framebuffer row, 0 topmost (R10, R31). -/
abbrev PixelRow := Fin 32

/-- A word from its two bytes, the high byte first (R54). -/
def wordOfBytes (hi lo : Byte) : Word := hi ++ lo

/-- Bits 15 to 8 of a word. -/
def hiByte (w : Word) : Byte := w.extractLsb' 8 8

/-- Bits 7 to 0 of a word. -/
def loByte (w : Word) : Byte := w.extractLsb' 0 8

end Sys2Proof
end

