-- ==== Sys2Proof/Syntax.lean ====
section
/-! DEFINITION. The 22 instructions, one constructor per row of spec/opcode_table.json (spec 00_scope.md R2;
30_encoding.md R85). Operands are the fields of R81 already pulled out of the word: x and y are register indexes, n a
row count, nn and nnn immediates (R83). A nibble that neither selects nor feeds an instruction (R88: both of CLS, the
low one of SE Vx, Vy) has no place in the syntax; the y of SHR and SHL does, because SHIFT_SRC = VY reads it. -/

namespace Sys2Proof

inductive Instr where
  /-- CLS, 0-E-: clear the framebuffer (44_display.md R181). -/
  | cls
  /-- JP nnn, 1nnn: jump (40_control_flow.md R111). -/
  | jp (nnn : Addr)
  /-- SE Vx, nn, 3xnn: skip if equal (R112). -/
  | seImm (x : RegIx) (nn : Byte)
  /-- SNE Vx, nn, 4xnn: skip if different (R113). -/
  | sneImm (x : RegIx) (nn : Byte)
  /-- SE Vx, Vy, 5xy-: skip if the registers are equal (R114). -/
  | seReg (x y : RegIx)
  /-- LD Vx, nn, 6xnn: load an immediate (41_immediate.md R130). -/
  | ldImm (x : RegIx) (nn : Byte)
  /-- ADD Vx, nn, 7xnn: add an immediate, no flag (R131). -/
  | addImm (x : RegIx) (nn : Byte)
  /-- OR Vx, Vy, 8xy1 (42_alu.md R141). -/
  | orReg (x y : RegIx)
  /-- AND Vx, Vy, 8xy2 (R142). -/
  | andReg (x y : RegIx)
  /-- XOR Vx, Vy, 8xy3 (R143). -/
  | xorReg (x y : RegIx)
  /-- ADD Vx, Vy, 8xy4: add, carry to VF (R144). -/
  | addReg (x y : RegIx)
  /-- SUB Vx, Vy, 8xy5: V[x] - V[y] (R145). -/
  | subReg (x y : RegIx)
  /-- SHR Vx, Vy, 8xy6: shift right by one (R146). -/
  | shr (x y : RegIx)
  /-- SUBN Vx, Vy, 8xy7: V[y] - V[x] (R147). -/
  | subnReg (x y : RegIx)
  /-- SHL Vx, Vy, 8xyE: shift left by one (R148). -/
  | shl (x y : RegIx)
  /-- LD I, nnn, Annn (43_index.md R170). -/
  | ldI (nnn : Addr)
  /-- DRW Vx, Vy, n, Dxyn: draw a sprite (44_display.md R183). -/
  | drw (x y : RegIx) (n : Fin 16)
  /-- ADD I, Vx, Fx1E (43_index.md R171). -/
  | addI (x : RegIx)
  /-- LD F, Vx, Fx29: point I at a glyph (R172). -/
  | ldF (x : RegIx)
  /-- LD B, Vx, Fx33: store decimal digits (45_memory_block.md R210). -/
  | ldB (x : RegIx)
  /-- LD [I], Vx, Fx55: store V[0] to V[x] (R211). -/
  | stBlock (x : RegIx)
  /-- LD Vx, [I], Fx65: load V[0] to V[x] (R212). -/
  | ldBlock (x : RegIx)
deriving DecidableEq, Repr

end Sys2Proof
end

