-- ==== Sys2Proof/Config.lean ====
section
/-! DEFINITION. The parameters of the hardware (spec 00_scope.md R5): the constants, the three straps with the values
each may take (R6), and the shape of the FONT argument. The default FONT and the default straps are values, and stand
in Sys2Proof/Machine/ResetValues.lean. -/

namespace Sys2Proof

/-- MEM_SIZE: bytes of memory (R5, R30). -/
abbrev memSize : Nat := 4096

/-- PROG_BASE, the address of the first program byte, which is RESET_PC too (R5). -/
abbrev progBase : Nat := 0x200

/-- PROG_MAX: the largest program image in bytes (R5, R264). -/
abbrev progMax : Nat := memSize - progBase

/-- FONT_BASE: the address of glyph 0 (R5, R57). -/
abbrev fontBase : Nat := 0x000

/-- GLYPH_BYTES: bytes per glyph (R5). -/
abbrev glyphBytes : Nat := 5

/-- NUM_GLYPHS: glyphs in the font (R5). -/
abbrev numGlyphs : Nat := 16

/-- FONT: sixteen glyphs of five bytes, first row first (R5, R57, R58). -/
abbrev Font := Vector (Vector Byte glyphBytes) numGlyphs

/-- Strap SHIFT_SRC: the source operand of SHR and SHL (R5, R146). -/
inductive ShiftSrc where
  | vx
  | vy
deriving DecidableEq, Repr

/-- Strap COLLISION_RULE: what sets the collision flag (R5, R186). -/
inductive CollisionRule where
  | eraseOnly
  | anyPreset
deriving DecidableEq, Repr

/-- Strap LOADSTORE_INC: whether block load and store advance I (R5, R211, R212); `keep` is the spec's NONE. -/
inductive LoadStoreInc where
  | keep
  | inc
deriving DecidableEq, Repr

/-- The three straps, sampled at reset and constant until the next reset (R5, R261). -/
structure Straps where
  shiftSrc      : ShiftSrc
  collisionRule : CollisionRule
  loadStoreInc  : LoadStoreInc
deriving DecidableEq, Repr

end Sys2Proof
end

