-- ==== Sys2Proof/WellFormed.lean ====
section
/-! DEFINITION. Well-formedness. The operand types of Instr hold exactly the values the fields of a word can hold
(spec 30_encoding.md R83), so every term of Instr is well formed; what has to be CHECKED is a plain number on its way
into an operand (R92), a program image on its way into memory (70_reset_and_hazards.md R264), and whether a word's
instruction has the canonical form (30_encoding.md R88). -/

namespace Sys2Proof

/-- The operands of one assembler line as plain numbers, before any range is checked (R92); a line leaves at 0 what
its instruction does not take. -/
structure RawOperands where
  x   : Nat := 0
  y   : Nat := 0
  n   : Nat := 0
  nn  : Nat := 0
  nnn : Nat := 0
deriving DecidableEq, Repr

/-- A register number in `V0` to `VF` (R20, R92). -/
def checkReg (x : Nat) : Option RegIx := if h : x < 16 then some ⟨x, h⟩ else none

/-- A row count 0 to 15 (R92). -/
def checkRows (n : Nat) : Option (Fin 16) := if h : n < 16 then some ⟨n, h⟩ else none

/-- An 8-bit immediate 0 to 255 (R92). -/
def checkImm8 (nn : Nat) : Option Byte := if nn < 256 then some (BitVec.ofNat 8 nn) else none

/-- A 12-bit immediate 0 to 4095 (R92). -/
def checkImm12 (nnn : Nat) : Option Addr := if nnn < 4096 then some (BitVec.ofNat 12 nnn) else none

/-- Every operand of a line is in the range R92 gives it. -/
def RawOperands.wellFormed (o : RawOperands) : Bool :=
  (checkReg o.x).isSome && (checkReg o.y).isSome && (checkRows o.n).isSome && (checkImm8 o.nn).isSome &&
    (checkImm12 o.nnn).isSome

/-- A program image the loader may place: at most PROG_MAX bytes, nothing else is checked (R263, R264). -/
def imageWellFormed (image : List Byte) : Bool := decide (image.length ≤ progMax)

/-- The canonical form of an instruction under a SHIFT_SRC strap: SHR and SHL have y = 0 where the strap makes their y
an ignored nibble (R88 (c)). The hardware executes every form; only an assembler prefers this one. -/
def Instr.canonical (src : ShiftSrc) : Instr → Bool
  | .shr _ y => src == .vy || y == 0
  | .shl _ y => src == .vy || y == 0
  | _ => true

end Sys2Proof
end

