-- ==== Sys2Proof/Decode.lean ====
section
/-! DEFINITION. Decoding and encoding (spec 30_encoding.md R80 to R91). A word is sliced into its fields by a total
function (R82); the opcode map by class (R86) then gives an instruction or names the family of unimplemented words the
word falls in (R90). Also here: the opcode map as the table of masks and matches (R84, R85), the encoder, which emits
canonical encodings (R88), and the host's decodeTableWord. -/

namespace Sys2Proof

/-- The six fields of a word (R81, R82). -/
structure Fields where
  cls : Nibble
  x   : Nibble
  y   : Nibble
  n   : Nibble
  nn  : Byte
  nnn : Addr
deriving DecidableEq, Repr

/-- The Decoder: a pure, total function of the word (R82). -/
def fields (w : Word) : Fields where
  cls := w.extractLsb' 12 4
  x   := w.extractLsb' 8 4
  y   := w.extractLsb' 4 4
  n   := w.extractLsb' 0 4
  nn  := w.extractLsb' 0 8
  nnn := w.extractLsb' 0 12

/-- A register field as a register number: every value names a register (R20, R83). -/
def regOf (f : Nibble) : RegIx := ⟨f.toNat, f.isLt⟩

/-- A register number, or a row count, as the 4-bit field that carries it. -/
def nibbleOf (r : Fin 16) : Nibble := BitVec.ofNat 4 r.val

/-- The eight families of unimplemented words (R90): a rejected word is rejected under one of these names. -/
inductive Unimplemented where
  /-- 0x0xyn with y not 0xE. -/
  | class0
  /-- 0x2nnn. -/
  | class2
  /-- 0x8xy0, 0x8xy8 to 0x8xyD, 0x8xyF. -/
  | class8
  /-- 0x9xyn. -/
  | class9
  /-- 0xBnnn. -/
  | classB
  /-- 0xCxnn. -/
  | classC
  /-- 0xExnn. -/
  | classE
  /-- 0xFxnn with nn not in 1E, 29, 33, 55, 65. -/
  | classF
deriving DecidableEq, Repr

/-- Class 0x8: the discriminant is n (R86). -/
def decodeClass8 (f : Fields) : Except Unimplemented Instr :=
  match f.n.toNat with
  | 0x1 => .ok (.orReg (regOf f.x) (regOf f.y))
  | 0x2 => .ok (.andReg (regOf f.x) (regOf f.y))
  | 0x3 => .ok (.xorReg (regOf f.x) (regOf f.y))
  | 0x4 => .ok (.addReg (regOf f.x) (regOf f.y))
  | 0x5 => .ok (.subReg (regOf f.x) (regOf f.y))
  | 0x6 => .ok (.shr (regOf f.x) (regOf f.y))
  | 0x7 => .ok (.subnReg (regOf f.x) (regOf f.y))
  | 0xE => .ok (.shl (regOf f.x) (regOf f.y))
  | _ => .error .class8

/-- Class 0xF: the discriminant is the pair (y, n), that is, nn (R86). -/
def decodeClassF (f : Fields) : Except Unimplemented Instr :=
  match f.nn.toNat with
  | 0x1E => .ok (.addI (regOf f.x))
  | 0x29 => .ok (.ldF (regOf f.x))
  | 0x33 => .ok (.ldB (regOf f.x))
  | 0x55 => .ok (.stBlock (regOf f.x))
  | 0x65 => .ok (.ldBlock (regOf f.x))
  | _ => .error .classF

/-- Class 0x0: the discriminant is y alone, and x and n are ignored (R86, R88 (a)). -/
def decodeClass0 (f : Fields) : Except Unimplemented Instr :=
  if f.y = 0xE#4 then .ok .cls else .error .class0

/-- The opcode map by class (R86). In class 0x5 the nibble n is ignored (R88 (b)). The last arm is class 0xF: a 4-bit
class has no other value. -/
def decodeFields (f : Fields) : Except Unimplemented Instr :=
  match f.cls.toNat with
  | 0x0 => decodeClass0 f
  | 0x1 => .ok (.jp f.nnn)
  | 0x2 => .error .class2
  | 0x3 => .ok (.seImm (regOf f.x) f.nn)
  | 0x4 => .ok (.sneImm (regOf f.x) f.nn)
  | 0x5 => .ok (.seReg (regOf f.x) (regOf f.y))
  | 0x6 => .ok (.ldImm (regOf f.x) f.nn)
  | 0x7 => .ok (.addImm (regOf f.x) f.nn)
  | 0x8 => decodeClass8 f
  | 0x9 => .error .class9
  | 0xA => .ok (.ldI f.nnn)
  | 0xB => .error .classB
  | 0xC => .error .classC
  | 0xD => .ok (.drw (regOf f.x) (regOf f.y) (regOf f.n))
  | 0xE => .error .classE
  | _ => decodeClassF f

/-- Decoding a word: extract the fields, then select (R84). -/
def decodeWord (w : Word) : Except Unimplemented Instr := decodeFields (fields w)

/-- Why a byte sequence gives no instruction. -/
inductive DecodeError where
  /-- Fewer than the two bytes of an instruction (R80). -/
  | truncated
  /-- A word of one of the eight unimplemented families (R90). -/
  | unimplemented (family : Unimplemented)
deriving DecidableEq, Repr

/-- Decoding bytes: the first two make the word (R80, R54); the rest is handed back. -/
def decode : List Byte → Except DecodeError (Instr × List Byte)
  | hi :: lo :: rest =>
    match decodeWord (wordOfBytes hi lo) with
    | .ok i => .ok (i, rest)
    | .error u => .error (.unimplemented u)
  | _ => .error .truncated

/-! The encoder, from the patterns of R85. Ignored nibbles are 0: the encoding is canonical (R88). -/

/-- A word of format NNN (R81). -/
def packNNN (cls : Nibble) (nnn : Addr) : Word := cls ++ nnn

/-- A word of format XNN, and of format X with the discriminant in nn (R81). -/
def packXNN (cls x : Nibble) (nn : Byte) : Word := cls ++ x ++ nn

/-- A word of format XYN, of format XY with the discriminant or an ignored nibble in n, and of format Z (R81). -/
def packXYN (cls x y n : Nibble) : Word := cls ++ x ++ y ++ n

/-- The word of an instruction (R85). -/
def encode : Instr → Word
  | .cls         => packXYN 0x0#4 0x0#4 0xE#4 0x0#4
  | .jp nnn      => packNNN 0x1#4 nnn
  | .seImm x nn  => packXNN 0x3#4 (nibbleOf x) nn
  | .sneImm x nn => packXNN 0x4#4 (nibbleOf x) nn
  | .seReg x y   => packXYN 0x5#4 (nibbleOf x) (nibbleOf y) 0x0#4
  | .ldImm x nn  => packXNN 0x6#4 (nibbleOf x) nn
  | .addImm x nn => packXNN 0x7#4 (nibbleOf x) nn
  | .orReg x y   => packXYN 0x8#4 (nibbleOf x) (nibbleOf y) 0x1#4
  | .andReg x y  => packXYN 0x8#4 (nibbleOf x) (nibbleOf y) 0x2#4
  | .xorReg x y  => packXYN 0x8#4 (nibbleOf x) (nibbleOf y) 0x3#4
  | .addReg x y  => packXYN 0x8#4 (nibbleOf x) (nibbleOf y) 0x4#4
  | .subReg x y  => packXYN 0x8#4 (nibbleOf x) (nibbleOf y) 0x5#4
  | .shr x y     => packXYN 0x8#4 (nibbleOf x) (nibbleOf y) 0x6#4
  | .subnReg x y => packXYN 0x8#4 (nibbleOf x) (nibbleOf y) 0x7#4
  | .shl x y     => packXYN 0x8#4 (nibbleOf x) (nibbleOf y) 0xE#4
  | .ldI nnn     => packNNN 0xA#4 nnn
  | .drw x y n   => packXYN 0xD#4 (nibbleOf x) (nibbleOf y) (nibbleOf n)
  | .addI x      => packXNN 0xF#4 (nibbleOf x) 0x1E#8
  | .ldF x       => packXNN 0xF#4 (nibbleOf x) 0x29#8
  | .ldB x       => packXNN 0xF#4 (nibbleOf x) 0x33#8
  | .stBlock x   => packXNN 0xF#4 (nibbleOf x) 0x55#8
  | .ldBlock x   => packXNN 0xF#4 (nibbleOf x) 0x65#8

/-- A word as it lies in memory: high byte first (R54). -/
def wordBytes (w : Word) : List Byte := [hiByte w, loByte w]

/-- The two bytes of an instruction as they lie in memory. -/
def encodeBytes (i : Instr) : List Byte := wordBytes (encode i)

/-- The canonical form of an instruction under a SHIFT_SRC strap (R88): the y that SHR and SHL do not read becomes 0. The
other ignored nibbles have no place in Instr (log 19). -/
def Instr.toCanonical (src : ShiftSrc) : Instr → Instr
  | .shr x y => .shr x (if src = .vx then 0 else y)
  | .shl x y => .shl x (if src = .vx then 0 else y)
  | i => i

/-! The opcode map as a table (R84, R85), the other form in which the spec gives it. -/

/-- A row of the table: the word belongs to it when the masked word equals the match (R84). -/
structure OpcodeRow where
  mnemonic : String
  mask     : Word
  pattern  : Word
deriving DecidableEq, Repr

/-- A word belongs to a row (R84). -/
def OpcodeRow.matches (r : OpcodeRow) (w : Word) : Bool := (w &&& r.mask) == r.pattern

/-- The row of an instruction in the table of R85. -/
def rowOf : Instr → OpcodeRow
  | .cls       => ⟨"CLS", 0xF0F0, 0x00E0⟩
  | .jp _      => ⟨"JP nnn", 0xF000, 0x1000⟩
  | .seImm ..  => ⟨"SE Vx, nn", 0xF000, 0x3000⟩
  | .sneImm .. => ⟨"SNE Vx, nn", 0xF000, 0x4000⟩
  | .seReg ..  => ⟨"SE Vx, Vy", 0xF000, 0x5000⟩
  | .ldImm ..  => ⟨"LD Vx, nn", 0xF000, 0x6000⟩
  | .addImm .. => ⟨"ADD Vx, nn", 0xF000, 0x7000⟩
  | .orReg ..  => ⟨"OR Vx, Vy", 0xF00F, 0x8001⟩
  | .andReg .. => ⟨"AND Vx, Vy", 0xF00F, 0x8002⟩
  | .xorReg .. => ⟨"XOR Vx, Vy", 0xF00F, 0x8003⟩
  | .addReg .. => ⟨"ADD Vx, Vy", 0xF00F, 0x8004⟩
  | .subReg .. => ⟨"SUB Vx, Vy", 0xF00F, 0x8005⟩
  | .shr ..    => ⟨"SHR Vx, Vy", 0xF00F, 0x8006⟩
  | .subnReg .. => ⟨"SUBN Vx, Vy", 0xF00F, 0x8007⟩
  | .shl ..    => ⟨"SHL Vx, Vy", 0xF00F, 0x800E⟩
  | .ldI _     => ⟨"LD I, nnn", 0xF000, 0xA000⟩
  | .drw ..    => ⟨"DRW Vx, Vy, n", 0xF000, 0xD000⟩
  | .addI _    => ⟨"ADD I, Vx", 0xF0FF, 0xF01E⟩
  | .ldF _     => ⟨"LD F, Vx", 0xF0FF, 0xF029⟩
  | .ldB _     => ⟨"LD B, Vx", 0xF0FF, 0xF033⟩
  | .stBlock _ => ⟨"LD [I], Vx", 0xF0FF, 0xF055⟩
  | .ldBlock _ => ⟨"LD Vx, [I]", 0xF0FF, 0xF065⟩

/-- The instruction each row of R85 makes of a word's fields, in the table's order: what decoding answers is the one
whose row fits the word (R84). -/
def instrsOfFields (f : Fields) : List Instr :=
  [.cls, .jp f.nnn, .seImm (regOf f.x) f.nn, .sneImm (regOf f.x) f.nn, .seReg (regOf f.x) (regOf f.y),
    .ldImm (regOf f.x) f.nn, .addImm (regOf f.x) f.nn] ++
  [.orReg (regOf f.x) (regOf f.y), .andReg (regOf f.x) (regOf f.y), .xorReg (regOf f.x) (regOf f.y),
    .addReg (regOf f.x) (regOf f.y), .subReg (regOf f.x) (regOf f.y), .shr (regOf f.x) (regOf f.y),
    .subnReg (regOf f.x) (regOf f.y), .shl (regOf f.x) (regOf f.y)] ++
  [.ldI f.nnn, .drw (regOf f.x) (regOf f.y) (regOf f.n), .addI (regOf f.x), .ldF (regOf f.x), .ldB (regOf f.x),
    .stBlock (regOf f.x), .ldBlock (regOf f.x)]

/-- The host's question: what the decoder reads from an instruction whose bits are w, numbered as
spec/opcode_table.json numbers them (bit 0 is the least significant bit of the one 16-bit word), laid out as the
hardware stores it. -/
def decodeTableWord (nbits w : Nat) : Option Instr :=
  match decode (wordBytes (BitVec.ofNat 16 (w % 2 ^ nbits))) with
  | .ok (i, _) => some i
  | .error _ => none

end Sys2Proof
end

