-- ==== Sys2Proof/Machine/Records.lean ====
section
/-! DEFINITION. The records State holds beside registers: the fault record and its causes (spec 60_exceptions.md R231,
R233), the display events (44_display.md R180), and the shapes of memory and framebuffer (10_state.md R30, R31). -/

namespace Sys2Proof.Machine

/-- The cause field of the fault record (R231): cause 0 means "none" and is never recorded by a fault. -/
inductive Cause where
  /-- Cause 0. -/
  | none
  /-- Cause 1. -/
  | unimplementedInstruction
deriving DecidableEq, Repr

/-- The spec's number of a cause (R231). -/
def Cause.number : Cause → Nat
  | .none => 0
  | .unimplementedInstruction => 1

/-- FREC, the fault record: meaningful only while FAULT = 1 (R233). -/
structure FaultRecord where
  cause : Cause
  pc    : Addr
  word  : Word
  cls   : Nibble
  x     : Nibble
  y     : Nibble
  n     : Nibble
  nn    : Byte
  nnn   : Addr
deriving DecidableEq, Repr

/-- A display event (R180). -/
inductive Event where
  /-- The pixel in column x, row y now has this value. -/
  | setPixel (x : Column) (y : PixelRow) (value : Bool)
  /-- Every pixel is now 0. -/
  | clear
  /-- A frame is complete and may be shown. -/
  | present
deriving DecidableEq, Repr

/-- Memory as the list of the cells that differ from what an unlisted address reads as, addresses strictly rising
(R30; the canonical form is Memory.wf). -/
abbrev Memory := List Host.Cell

/-- The framebuffer: 32 rows of 64 one-bit pixels, the top row and the left column first (R31). -/
abbrev Framebuffer := Vector (Vector Bool 64) 32

end Sys2Proof.Machine
end

