-- ==== Sys2Proof/Machine/ResetValues.lean ====
section
/-! DEFINITION. The values State.reset puts into the fields, and the default FONT (spec 10_state.md R34; 00_scope.md
R5, R6; 20_memory.md R58; log 2, 3, 4, 8). -/

namespace Sys2Proof.Machine

/-- The default FONT (R58; the bytes are the spec's from general knowledge, log 3: UNVERIFIED). -/
def fontDefault : Font := #v[
  #v[0xF0, 0x90, 0x90, 0x90, 0xF0], #v[0x20, 0x60, 0x20, 0x20, 0x70],
  #v[0xF0, 0x10, 0xF0, 0x80, 0xF0], #v[0xF0, 0x10, 0xF0, 0x10, 0xF0],
  #v[0x90, 0x90, 0xF0, 0x10, 0x10], #v[0xF0, 0x80, 0xF0, 0x10, 0xF0],
  #v[0xF0, 0x80, 0xF0, 0x90, 0xF0], #v[0xF0, 0x10, 0x20, 0x40, 0x40],
  #v[0xF0, 0x90, 0xF0, 0x90, 0xF0], #v[0xF0, 0x90, 0xF0, 0x10, 0xF0],
  #v[0xF0, 0x90, 0xF0, 0x90, 0x90], #v[0xE0, 0x90, 0xE0, 0x90, 0xE0],
  #v[0xF0, 0x80, 0x80, 0x80, 0xF0], #v[0xE0, 0x90, 0x90, 0x90, 0xE0],
  #v[0xF0, 0x80, 0xF0, 0x80, 0xF0], #v[0xF0, 0x80, 0xF0, 0x80, 0x80]]

/-- The straps at their defaults, the reference implementation's behaviour (R5, R6; log 2). -/
def strapsDefault : Straps := ⟨.vx, .eraseOnly, .keep⟩

/-- pc after reset: RESET_PC (R24, R34). -/
def pcReset : Addr := 0x200

/-- Every general register after reset (R34; log 8). -/
def vReset : Vector Byte 16 := Vector.replicate 16 0x00

/-- I after reset (R34; log 8). -/
def iReset : Word := 0x0000

/-- The clear framebuffer (R34, R181). -/
def fbBlank : Framebuffer := Vector.replicate 32 (Vector.replicate 64 false)

/-- FREC after reset: the spec leaves it unspecified (R34, R260); DESIGN CHOICE, log 4. No rule reads it while
FAULT = 0. -/
def frecReset : FaultRecord := ⟨.none, 0, 0, 0, 0, 0, 0, 0, 0⟩

end Sys2Proof.Machine
end

