-- ==== Sys2Proof/Machine/State.lean ====
section
/-! DEFINITION. The state of the machine, all of it (spec 10_state.md section 1), the reasons to stop, and the machine
right after reset (R34, R260). Plain data. -/

namespace Sys2Proof.Machine

/-- Everything the spec gives the machine (10_state.md R20 to R32; 60_exceptions.md R233), the three straps as sampled
at reset (70_reset_and_hazards.md R261; log 2), and two fields of the model's own: `loaded` (log 5) and `events`
(log 6). -/
structure State where
  /-- V[0] to V[15]; VF is V[15] (R20, R21). -/
  v       : Vector Byte 16
  /-- The index register I (R23). -/
  i       : Word
  /-- The program counter (R24). -/
  pc      : Addr
  /-- Mem, as the cells that differ from the reset contents (R30, R34). -/
  mem     : Memory
  /-- FB (R31). -/
  fb      : Framebuffer
  /-- The fault latch FAULT (R233). -/
  fault   : Bool
  /-- The fault record FREC (R233). -/
  frec    : FaultRecord
  /-- STARTED: a step has been requested since reset (R32). -/
  started : Bool
  /-- The straps as sampled at reset (R261). -/
  straps  : Straps
  /-- An image has been placed since reset (the model's own; R264, log 5). -/
  loaded  : Bool
  /-- The display events emitted since reset, oldest first (the model's own; R66, R180, log 6). -/
  events  : List Event
deriving DecidableEq, Repr

/-- The structured error value surfaced to the driver (R233, R234). -/
inductive Fault where
  /-- What a driver reads from a machine whose latch is set, with the record. No step and no instruction ENDS in it:
  the step that raises the fault goes on to the next state with FAULT latched (R232), and a step request after it
  leaves that state as it is (R234, log 7). Only State.surfacedFault gives it. Safe: it reports a state, it replaces
  none. -/
  | unimplementedInstruction (record : FaultRecord)
deriving DecidableEq, Repr

/-- What the model declines by name. -/
inductive Refusal where
  /-- exec, for an instruction that has no meaning yet; no arm is left that answers so. Safe: it stops. -/
  | notModelled (mnemonic : String)
  /-- The loader, for an image of more than 3584 bytes (R264). Safe: the spec gives the launch no meaning. -/
  | imageTooLong
  /-- The loader, for a second image after one reset (R264). Safe: the spec gives it no meaning. -/
  | secondLoad
  /-- The loader, after the first step request (R264). Safe: the spec gives it no meaning. -/
  | loadAfterStart
deriving DecidableEq, Repr

/-- The machine right after reset, the straps and FONT at their defaults (R34, R260). -/
def State.reset : State where
  v       := vReset
  i       := iReset
  pc      := pcReset
  mem     := []
  fb      := fbBlank
  fault   := false
  frec    := frecReset
  started := false
  straps  := strapsDefault
  loaded  := false
  events  := []

end Sys2Proof.Machine
end

