-- ==== Sys2Proof/Machine/Ops.lean ====
section
/-! DEFINITION. The shared operations: memory and its one read and one write (spec 20_memory.md R50 to R55), the
framebuffer's pixel and plot (10_state.md R31), the updates of State, the program counter's next values
(40_control_flow.md R110), and taking the fault (60_exceptions.md R232). There is no return from the fault (R234): only
a reset clears it. -/

namespace Sys2Proof.Machine

/-! Memory. -/

/-- Byte a of a FONT, counted from FONT_BASE; 0 past its 80 bytes (R57). -/
def fontByte (font : Font) (a : Nat) : Byte :=
  if h : a < numGlyphs * glyphBytes then
    (font[a / glyphBytes]'(by simp only [numGlyphs, glyphBytes] at *; omega))[a % glyphBytes]'(Nat.mod_lt _ (by decide))
  else 0x00

/-- What an address that memory does not list reads as: the reset contents, the default FONT at FONT_BASE and 0x00
elsewhere (R34, R57; log 3). FONT_BASE is 0, so an address is its own offset from it. -/
def Memory.unlisted (a : Nat) : Byte := fontByte fontDefault a

/-- The canonical form: addresses strictly rising and inside memory, no cell equal to what it reads as unlisted. -/
abbrev Memory.wf (m : Memory) : Prop :=
  m.Pairwise (fun c d => c.1 < d.1) ∧ ∀ c ∈ m, c.1 < memSize ∧ c.2 ≠ Memory.unlisted c.1

/-- The byte at a cell. -/
def Memory.read : Memory → Nat → Byte
  | [], a => Memory.unlisted a
  | c :: m, a => if c.1 = a then c.2 else Memory.read m a

/-- Lists a cell, in its place, over an earlier entry for the same address. -/
def Memory.insert (a : Nat) (b : Byte) : Memory → Memory
  | [] => [(a, b)]
  | c :: m =>
    if a < c.1 then (a, b) :: c :: m
    else if a = c.1 then (a, b) :: m
    else c :: Memory.insert a b m

/-- Sets one cell and keeps the canonical form: the byte an unlisted address reads as removes the entry. -/
def Memory.write (m : Memory) (a : Nat) (b : Byte) : Memory :=
  if b = Memory.unlisted a then m.filter fun c => c.1 ≠ a else Memory.insert a b m

/-- EA(a): every address is reduced mod 4096 at the moment of the access (R51). -/
def ea (a : Nat) : Nat := a % memSize

/-- MemRead(a, 1) on the memory (R52). -/
def Memory.readByte (m : Memory) (a : Nat) : Byte := m.read (ea a)

/-- MemWrite(a, 1, b) on the memory (R53). -/
def Memory.writeByte (m : Memory) (a : Nat) (b : Byte) : Memory := m.write (ea a) b

/-- Bytes placed one after another from address a upward. -/
def Memory.writeBytes (m : Memory) (a : Nat) : List Byte → Memory
  | [] => m
  | b :: bs => Memory.writeBytes (m.writeByte a b) (a + 1) bs

/-! The framebuffer. -/

/-- FB[px, py] (R10, R31). -/
def Framebuffer.pixel (fb : Framebuffer) (px : Column) (py : PixelRow) : Bool := fb[py][px]

/-- FB[px, py] <- b (R10, R31). -/
def Framebuffer.plot (fb : Framebuffer) (px : Column) (py : PixelRow) (b : Bool) : Framebuffer :=
  fb.set py (fb[py].set px b)

/-! The updates of State, one per piece. -/

/-- The state with V[x] <- b (R10). -/
def State.writeV (s : State) (x : RegIx) (b : Byte) : State := { s with v := s.v.set x b }

/-- The state with I <- w (R10). -/
def State.setI (s : State) (w : Word) : State := { s with i := w }

/-- The state with pc <- a (R10). -/
def State.setPc (s : State) (a : Addr) : State := { s with pc := a }

/-- The state with another memory. -/
def State.setMem (s : State) (m : Memory) : State := { s with mem := m }

/-- The state with another framebuffer. -/
def State.setFb (s : State) (fb : Framebuffer) : State := { s with fb := fb }

/-- emit: events appended to the ordered list of what the Sink gets (R10, R66). -/
def State.emit (s : State) (es : List Event) : State := { s with events := s.events ++ es }

/-- STARTED <- 1 (R32, R110). -/
def State.markStarted (s : State) : State := { s with started := true }

/-- The state that remembers its one program load (R264; log 5). -/
def State.markLoaded (s : State) : State := { s with loaded := true }

/-- FREC <- r; FAULT <- 1 (R232). -/
def State.latch (s : State) (r : FaultRecord) : State := { s with fault := true, frec := r }

/-- V[x] (R10). -/
def State.readV (s : State) (x : RegIx) : Byte := s.v[x]

/-- MemRead(a, 1) (R52). -/
def State.memRead (s : State) (a : Nat) : Byte := s.mem.readByte a

/-- MemWrite(a, 1, b) (R53). -/
def State.memWrite (s : State) (a : Nat) (b : Byte) : State := s.setMem (s.mem.writeByte a b)

/-! Fetch and the program counter. -/

/-- MemRead(pc, 2): the byte at pc is the high one, and each byte's address is reduced separately (R52, R54, R55). -/
def State.fetchWord (s : State) : Word := wordOfBytes (s.memRead s.pc.toNat) (s.memRead (s.pc.toNat + 1))

/-- npc = (pc + 2) mod 4096 (R25). -/
def State.npc (s : State) : Addr := s.pc + 2

/-- SEQ: pc <- npc (R110). -/
def State.seq (s : State) : State := s.setPc s.npc

/-- SKIP: pc <- (npc + 2) mod 4096 when the condition holds, SEQ when it does not (R110). -/
def State.skipIf (s : State) (c : Bool) : State := s.setPc (if c then s.npc + 2 else s.npc)

/-- JUMP: pc <- nnn (R110). -/
def State.jump (s : State) (nnn : Addr) : State := s.setPc nnn

/-! Taking the fault. -/

/-- The record of a fault at this state by this word: where it stands, the word, its decoded fields (R231, R233). -/
def State.faultRecord (s : State) (w : Word) : FaultRecord where
  cause := .unimplementedInstruction
  pc    := s.pc
  word  := w
  cls   := (fields w).cls
  x     := (fields w).x
  y     := (fields w).y
  n     := (fields w).n
  nn    := (fields w).nn
  nnn   := (fields w).nnn

/-- raise UnimplementedInstruction: record and latch, and no other effect; pc stays at the faulting word, no event is
emitted (R232). -/
def State.takeFault (s : State) (w : Word) : State := s.latch (s.faultRecord w)

/-- A step request while FAULT = 1 does nothing (R234; log 7). -/
def State.whileFaulted (s : State) : State := s

end Sys2Proof.Machine
end

