-- ==== Sys2Proof/Machine/Operands.lean ====
section
/-! DEFINITION. The operand forms beyond a plain V[x]: the flags register, the source of a shift, the block V[0] to
V[x], the decimal digits of a byte, and the sprite row (spec 10_state.md R21; 42_alu.md R146, R148; 45_memory_block.md
R210 to R213; 44_display.md R183). -/

namespace Sys2Proof.Machine

/-- VF is V[15] (R21). -/
def vf : RegIx := 15

/-- The source operand of SHR and SHL: V[x] under SHIFT_SRC = VX, V[y] under SHIFT_SRC = VY (R146, R148; log 14). -/
def State.shiftOperand (s : State) (x y : RegIx) : Byte :=
  match s.straps.shiftSrc with
  | .vx => s.readV x
  | .vy => s.readV y

/-- The register numbered k, for k in 0 to 15 (the block loops of R211 and R212 count with plain numbers). -/
def regNumber (k : Nat) : RegIx := Fin.ofNat 16 k

/-- `for j = 0 to k-1: MemWrite(base + j, 1, V[j])` on the memory (R211). -/
def storeBlock (v : RegIx → Byte) (base : Nat) : Nat → Memory → Memory
  | 0, m => m
  | k + 1, m => (storeBlock v base k m).writeByte (base + k) (v (regNumber k))

/-- `for j = 0 to k-1: V[j] <- MemRead(base + j, 1)` (R212). -/
def loadBlock (base : Nat) : Nat → State → State
  | 0, s => s
  | k + 1, s => (loadBlock base k s).writeV (regNumber k) ((loadBlock base k s).memRead (base + k))

/-- The advance of I after a block of x + 1 bytes: none under LOADSTORE_INC = NONE, mod 65536 under INC (R211, R212;
log 14). -/
def State.advanceI (s : State) (x : RegIx) : State :=
  match s.straps.loadStoreInc with
  | .keep => s
  | .inc => s.setI (BitVec.ofNat 16 (s.i.toNat + x.val + 1))

/-- The hundreds digit of a byte (R210). -/
def hundreds (v : Byte) : Byte := BitVec.ofNat 8 (v.toNat / 100)

/-- The tens digit of a byte (R210). -/
def tens (v : Byte) : Byte := BitVec.ofNat 8 (v.toNat / 10 % 10)

/-- The ones digit of a byte (R210). -/
def ones (v : Byte) : Byte := BitVec.ofNat 8 (v.toNat % 10)

/-- The sprite bit that falls on the k-th pixel of a row: the most significant bit is the leftmost (R183). -/
def spriteBit (b : Byte) (k : Nat) : Bool := b.getLsbD (7 - k)

end Sys2Proof.Machine
end

