-- ==== Sys2Proof/Machine/Flags.lean ====
section
/-! DEFINITION. Every flag computation of the spec (10_state.md R27; 42_alu.md R144 to R149; 44_display.md R186), and
the order in which a result and its flag are written (42_alu.md R140). -/

namespace Sys2Proof.Machine

/-- A flag is written as exactly 0x00 or 0x01 (R27, R140). -/
def flagByte (c : Bool) : Byte := if c then 0x01 else 0x00

/-- ADD Vx, Vy: the exact sum exceeds 255 (R144). -/
def carryOut (a b : Byte) : Bool := decide (a.toNat + b.toNat > 255)

/-- SUB and SUBN: the minuend is strictly greater than the subtrahend; equal operands give 0 (R145, R147). -/
def strictlyGreater (a b : Byte) : Bool := decide (a.toNat > b.toNat)

/-- SHR: the bit shifted out, bit 0 of the source (R146). -/
def shiftedOutRight (s : Byte) : Bool := s.getLsbD 0

/-- SHL: the bit shifted out, bit 7 of the source (R148). -/
def shiftedOutLeft (s : Byte) : Bool := s.getLsbD 7

/-- The collision detector on one visited cell: its old value and the sprite bit (R186; ANY_PRESET: log 14). -/
def collides (rule : CollisionRule) (old s : Bool) : Bool :=
  match rule with
  | .eraseOnly => old && s
  | .anyPreset => old

/-- V[x] <- result, then VF <- flag: with x = 15 the flag remains (R140; log 13: UNVERIFIED). -/
def State.writeResultThenFlag (s : State) (x : RegIx) (result : Byte) (flag : Bool) : State :=
  (s.writeV x result).writeV vf (flagByte flag)

end Sys2Proof.Machine
end

