-- ==== Sys2Proof/Machine/Alu.lean ====
section
/-! DEFINITION. The eight implemented instructions of class 0x8 (spec 42_alu.md R140 to R148). Both sources are read
before anything is written; the flag, where there is one, is written last (R140). -/

namespace Sys2Proof.Machine

/-- OR Vx, Vy (R141): no flag. -/
def execOrReg (x y : RegIx) (s : State) : Host.Outcome State Fault Refusal :=
  .next (s.writeV x (s.readV x ||| s.readV y)).seq

/-- AND Vx, Vy (R142): no flag. -/
def execAndReg (x y : RegIx) (s : State) : Host.Outcome State Fault Refusal :=
  .next (s.writeV x (s.readV x &&& s.readV y)).seq

/-- XOR Vx, Vy (R143): no flag. -/
def execXorReg (x y : RegIx) (s : State) : Host.Outcome State Fault Refusal :=
  .next (s.writeV x (s.readV x ^^^ s.readV y)).seq

/-- ADD Vx, Vy (R144). -/
def execAddReg (x y : RegIx) (s : State) : Host.Outcome State Fault Refusal :=
  .next (s.writeResultThenFlag x (s.readV x + s.readV y) (carryOut (s.readV x) (s.readV y))).seq

/-- SUB Vx, Vy (R145): the flag is 0 on equal operands. -/
def execSubReg (x y : RegIx) (s : State) : Host.Outcome State Fault Refusal :=
  .next (s.writeResultThenFlag x (s.readV x - s.readV y) (strictlyGreater (s.readV x) (s.readV y))).seq

/-- SUBN Vx, Vy (R147): the flag is 0 on equal operands. -/
def execSubnReg (x y : RegIx) (s : State) : Host.Outcome State Fault Refusal :=
  .next (s.writeResultThenFlag x (s.readV y - s.readV x) (strictlyGreater (s.readV y) (s.readV x))).seq

/-- SHR Vx, Vy (R146). -/
def execShr (x y : RegIx) (s : State) : Host.Outcome State Fault Refusal :=
  .next (s.writeResultThenFlag x (s.shiftOperand x y >>> 1) (shiftedOutRight (s.shiftOperand x y))).seq

/-- SHL Vx, Vy (R148). -/
def execShl (x y : RegIx) (s : State) : Host.Outcome State Fault Refusal :=
  .next (s.writeResultThenFlag x (s.shiftOperand x y <<< 1) (shiftedOutLeft (s.shiftOperand x y))).seq

end Sys2Proof.Machine
end

