-- ==== Sys2Proof/Machine/ControlFlow.lean ====
section
/-! DEFINITION. JP, SE, SNE, SE Vx, Vy (spec 40_control_flow.md R110 to R114): each writes pc and nothing else. -/

namespace Sys2Proof.Machine

/-- JP nnn (R111): pc equals nnn exactly, odd or not. -/
def execJp (nnn : Addr) (s : State) : Host.Outcome State Fault Refusal := .next (s.jump nnn)

/-- SE Vx, nn (R112). -/
def execSeImm (x : RegIx) (nn : Byte) (s : State) : Host.Outcome State Fault Refusal :=
  .next (s.skipIf (s.readV x == nn))

/-- SNE Vx, nn (R113). -/
def execSneImm (x : RegIx) (nn : Byte) (s : State) : Host.Outcome State Fault Refusal :=
  .next (s.skipIf (s.readV x != nn))

/-- SE Vx, Vy (R114). -/
def execSeReg (x y : RegIx) (s : State) : Host.Outcome State Fault Refusal :=
  .next (s.skipIf (s.readV x == s.readV y))

end Sys2Proof.Machine
end

