-- ==== Sys2Proof/Machine/Display.lean ====
section
/-! DEFINITION. CLS, DRW, the XOR-compositor and the collision detector (spec 44_display.md R180 to R190). -/

namespace Sys2Proof.Machine

/-- CLS (R181): every cell 0, one clear event, no other. -/
def execCls (s : State) : Host.Outcome State Fault Refusal :=
  .next ((s.setFb fbBlank).emit [.clear]).seq

/-- A draw in progress: the framebuffer, whether a collision was seen, the pixel events so far. -/
structure Draw where
  fb     : Framebuffer
  hit    : Bool
  events : List Event
deriving DecidableEq, Repr

/-- One visited cell under sprite bit b (R183, R186, R187): XOR, test, report if the bit is 1. -/
def Draw.visit (rule : CollisionRule) (px : Column) (py : PixelRow) (b : Bool) (d : Draw) : Draw where
  fb     := d.fb.plot px py (d.fb.pixel px py ^^ b)
  hit    := d.hit || collides rule (d.fb.pixel px py) b
  events := if b then d.events ++ [.setPixel px py (d.fb.pixel px py ^^ b)] else d.events

/-- The bit loop of one row, over the bits still to come: the first column past 63 ends it (R185). -/
def Draw.bits (rule : CollisionRule) (bx : Nat) (py : PixelRow) (row : Byte) : List Nat → Draw → Draw
  | [], d => d
  | k :: ks, d =>
    if h : bx + k < 64 then Draw.bits rule bx py row ks (d.visit rule ⟨bx + k, h⟩ py (spriteBit row k)) else d

/-- The row loop, over the rows still to come: the first row past 31 ends the draw, and its bytes are not read
(R185). -/
def Draw.rows (rule : CollisionRule) (bx byy : Nat) (byteOf : Nat → Byte) : List Nat → Draw → Draw
  | [], d => d
  | r :: rs, d =>
    if h : byy + r < 32 then
      Draw.rows rule bx byy byteOf rs (d.bits rule bx ⟨byy + r, h⟩ (byteOf r) (List.range 8))
    else d

/-- The origin of a sprite: the coordinate registers are reduced once (R184). -/
def State.originX (s : State) (x : RegIx) : Nat := (s.readV x).toNat % 64

/-- See State.originX (R184). -/
def State.originY (s : State) (y : RegIx) : Nat := (s.readV y).toNat % 32

/-- The whole draw of DRW Vx, Vy, n from a state (R183 to R187): row r of the sprite is the byte at I + r (R190). -/
def State.sprite (s : State) (x y : RegIx) (n : Fin 16) : Draw :=
  Draw.rows s.straps.collisionRule (s.originX x) (s.originY y) (fun r => s.memRead (s.i.toNat + r)) (List.range n.val)
    ⟨s.fb, false, []⟩

/-- DRW Vx, Vy, n (R183): VF becomes the collision flag whatever it held, and one present ends the events (R188). VF is
read as a coordinate before it is written (R184; log 16). -/
def execDrw (x y : RegIx) (n : Fin 16) (s : State) : Host.Outcome State Fault Refusal :=
  .next (((s.setFb (s.sprite x y n).fb).writeV vf (flagByte (s.sprite x y n).hit)).emit
    ((s.sprite x y n).events ++ [.present])).seq

end Sys2Proof.Machine
end

