-- ==== Sys2Proof/Machine/Immediate.lean ====
section
/-! DEFINITION. LD Vx, nn and ADD Vx, nn (spec 41_immediate.md R130, R131): neither writes a flag. -/

namespace Sys2Proof.Machine

/-- LD Vx, nn (R130). -/
def execLdImm (x : RegIx) (nn : Byte) (s : State) : Host.Outcome State Fault Refusal :=
  .next (s.writeV x nn).seq

/-- ADD Vx, nn (R131): wraps mod 256, and VF is touched only as V[x]. -/
def execAddImm (x : RegIx) (nn : Byte) (s : State) : Host.Outcome State Fault Refusal :=
  .next (s.writeV x (s.readV x + nn)).seq

end Sys2Proof.Machine
end

