-- ==== Sys2Proof/Machine/Index.lean ====
section
/-! DEFINITION. LD I, ADD I, LD F (spec 43_index.md R170 to R172): each writes I and pc and nothing else. -/

namespace Sys2Proof.Machine

/-- LD I, nnn (R170): zero-extended to 16 bits. -/
def execLdI (nnn : Addr) (s : State) : Host.Outcome State Fault Refusal :=
  .next (s.setI (nnn.setWidth 16)).seq

/-- ADD I, Vx (R171): wraps mod 65536, no flag. -/
def execAddI (x : RegIx) (s : State) : Host.Outcome State Fault Refusal :=
  .next (s.setI (s.i + (s.readV x).setWidth 16)).seq

/-- LD F, Vx (R172): the whole of V[x] counts, not its low nibble. -/
def execLdF (x : RegIx) (s : State) : Host.Outcome State Fault Refusal :=
  .next (s.setI (BitVec.ofNat 16 (fontBase + glyphBytes * (s.readV x).toNat))).seq

end Sys2Proof.Machine
end

