-- ==== Sys2Proof/Machine/MemoryBlock.lean ====
section
/-! DEFINITION. LD B, LD [I], LD Vx,[I] (spec 45_memory_block.md R210 to R213). The base is I, and each access is
reduced mod 4096 on its own (20_memory.md R51). -/

namespace Sys2Proof.Machine

/-- LD B, Vx (R210): hundreds, tens, ones at I, I+1, I+2. -/
def execLdB (x : RegIx) (s : State) : Host.Outcome State Fault Refusal :=
  .next (((s.memWrite s.i.toNat (hundreds (s.readV x))).memWrite (s.i.toNat + 1) (tens (s.readV x))).memWrite
    (s.i.toNat + 2) (ones (s.readV x))).seq

/-- LD [I], Vx (R211): V[0] to V[x], inclusive. -/
def execStBlock (x : RegIx) (s : State) : Host.Outcome State Fault Refusal :=
  .next ((s.setMem (storeBlock s.readV s.i.toNat (x.val + 1) s.mem)).advanceI x).seq

/-- LD Vx, [I] (R212): V[0] to V[x], inclusive. -/
def execLdBlock (x : RegIx) (s : State) : Host.Outcome State Fault Refusal :=
  .next ((loadBlock s.i.toNat (x.val + 1) s).advanceI x).seq

end Sys2Proof.Machine
end

