-- ==== Sys2Proof/Machine/Step.lean ====
section
/-! DEFINITION. One step request (spec 40_control_flow.md R110; 70_reset_and_hazards.md R266), and the host's
withFetchWord. -/

namespace Sys2Proof.Machine

/-- The step of R110: with FAULT set nothing happens; otherwise STARTED is set, the word at pc is fetched and decoded,
and its instruction runs, or, where no row matches, the fault is taken. -/
def step (s : State) : Host.Outcome State Fault Refusal :=
  if s.fault then .next s.whileFaulted
  else
    match decodeWord s.markStarted.fetchWord with
    | .ok i => exec i s.markStarted
    | .error _ => .next (s.markStarted.takeFault s.markStarted.fetchWord)

/-- The state with an instruction (its one word, high byte first) stored where the next step fetches: at pc and
(pc + 1) mod 4096 (R54, R55; log 1). Nothing else changes; a state whose FAULT is set fetches nothing. -/
def State.withFetchWord (s : State) (nbits w : Nat) : State :=
  s.setMem (s.mem.writeBytes s.pc.toNat (wordBytes (BitVec.ofNat 16 (w % 2 ^ nbits))))

end Sys2Proof.Machine
end

