-- ==== Sys2Proof/Machine/Driver.lean ====
section
/-! DEFINITION. The host side of the machine: reset with given straps and FONT, the program load, the step request with
its answer, and the driver's view of a fault (spec 00_scope.md R7; 70_reset_and_hazards.md R260 to R269; 60_exceptions.md
R233, R234; log 1, 5, 17). -/

namespace Sys2Proof.Machine

/-- The 80 bytes of a FONT, glyph 0 first (R57). -/
def fontBytes (font : Font) : List Byte := (List.range (numGlyphs * glyphBytes)).map (fontByte font)

/-- Reset with the strap inputs and the FONT the launch gives (R260, R261). -/
def State.resetWith (straps : Straps) (font : Font) : State :=
  { State.reset with straps := straps, mem := Memory.writeBytes [] fontBase (fontBytes font) }

/-- The loader: one image of at most PROG_MAX bytes, placed from PROG_BASE upward, after reset and before the first step
request; anything else is refused by name (R263, R264). -/
def State.load (image : List Byte) (s : State) : Host.Outcome State Fault Refusal :=
  if s.started then .refused .loadAfterStart
  else if s.loaded then .refused .secondLoad
  else if imageWellFormed image then .next (s.setMem (s.mem.writeBytes progBase image)).markLoaded
  else .refused .imageTooLong

/-- What the outside world can ask of the block (R7, R269). -/
inductive Request where
  /-- Reset, with the strap inputs and the FONT sampled by it. -/
  | reset (straps : Straps) (font : Font)
  /-- Load a program image. -/
  | load (image : List Byte)
  /-- Execute one instruction. -/
  | step
deriving DecidableEq, Repr

/-- The block serving one request; a reset is allowed at any time between steps, a faulted machine included (R260,
R269). -/
def State.serve (s : State) : Request → Host.Outcome State Fault Refusal
  | .reset straps font => .next (.resetWith straps font)
  | .load image => s.load image
  | .step => step s

/-- The status a step answers (R266). -/
inductive Status where
  | ok
  | fault
deriving DecidableEq, Repr

/-- The answer to a step request: the status, and the display events of that step in order (R266). FAULT after the step
says which status it was: a step that raised the fault, or a request that found it set, answers fault. -/
def State.stepAnswer (s : State) : Option (Status × List Event) :=
  match step s with
  | .next t => some (if t.fault then .fault else .ok, t.events.drop s.events.length)
  | _ => none

/-- What the driver may read between steps: the structured error value, while FAULT = 1 (R233, R234). -/
def State.surfacedFault (s : State) : Option Fault :=
  if s.fault then some (.unimplementedInstruction s.frec) else none

end Sys2Proof.Machine
end

