-- ==== Sys2Proof/Machine/Sink.lean ====
section
/-! DEFINITION. The Display Sink's own grid: what a receiver that applies the events in order holds (spec
44_display.md R192; 20_memory.md R66). The Sink never answers (R180). -/

namespace Sys2Proof.Machine

/-- One event applied to the Sink's grid; present carries no data (R192). -/
def Sink.apply (grid : Framebuffer) : Event → Framebuffer
  | .setPixel x y value => grid.plot x y value
  | .clear => fbBlank
  | .present => grid

/-- A list of events applied in order (R66). -/
def Sink.replay (grid : Framebuffer) (es : List Event) : Framebuffer := es.foldl Sink.apply grid

end Sys2Proof.Machine
end

