-- ==== Sys2Proof/Safety.lean ====
section
/-! DEFINITION. The terms claims use: what a step may leave unchanged (spec 00_scope.md R11), a run in good standing
and its end (60_exceptions.md R234; 70_reset_and_hazards.md R268), the launch premises (R273), which registers an
instruction writes (10_state.md R22), and the picture of a sprite as the spec's prose gives it (44_display.md R184,
R185, R187). -/

namespace Sys2Proof.Machine

/-! Frames: what is unchanged between two states. -/

/-- Every general register outside the list keeps its value. -/
def KeepsV (written : List RegIx) (s t : State) : Prop := ∀ r, r ∉ written → t.readV r = s.readV r

/-- Every byte of memory keeps its value. -/
def KeepsMem (s t : State) : Prop := ∀ a, t.memRead a = s.memRead a

/-- Every pixel keeps its value. -/
def KeepsFb (s t : State) : Prop := ∀ px py, t.fb.pixel px py = s.fb.pixel px py

/-- Nothing was emitted to the Sink (the event log is log 6). -/
def KeepsEvents (s t : State) : Prop := t.events = s.events

/-- The fault latch, the fault record, STARTED, the straps and the load mark keep their values (the straps
as state are log 2, the load mark log 5). -/
def KeepsControl (s t : State) : Prop :=
  t.fault = s.fault ∧ t.frec = s.frec ∧ t.started = s.started ∧ t.straps = s.straps ∧ t.loaded = s.loaded

/-- The display, on both sides of its interface, is untouched. -/
def KeepsDisplay (s t : State) : Prop := KeepsFb s t ∧ KeepsEvents s t

/-- pc went on to the next word: SEQ (40_control_flow.md R110). -/
def WentToNextWord (s t : State) : Prop := t.pc.toNat = (s.pc.toNat + 2) % 4096

/-- Whatever else an instruction did, only general registers of the list, and pc by SEQ. -/
def OnlyV (written : List RegIx) (s t : State) : Prop :=
  WentToNextWord s t ∧ KeepsV written s t ∧ t.i = s.i ∧ KeepsMem s t ∧ KeepsDisplay s t ∧ KeepsControl s t

/-- Only I, and pc by SEQ. -/
def OnlyI (s t : State) : Prop :=
  WentToNextWord s t ∧ KeepsV [] s t ∧ KeepsMem s t ∧ KeepsDisplay s t ∧ KeepsControl s t

/-- Only pc. -/
def OnlyPc (s t : State) : Prop :=
  KeepsV [] s t ∧ t.i = s.i ∧ KeepsMem s t ∧ KeepsDisplay s t ∧ KeepsControl s t

/-- The general registers an instruction writes (the table of 10_state.md R22). -/
def writesV : Instr → List RegIx
  | .cls | .jp _ | .seImm .. | .sneImm .. | .seReg .. => []
  | .ldImm x _ | .addImm x _ => [x]
  | .orReg x _ | .andReg x _ | .xorReg x _ => [x]
  | .addReg x _ | .subReg x _ | .shr x _ | .subnReg x _ | .shl x _ => [x, vf]
  | .ldI _ | .addI _ | .ldF _ | .ldB _ | .stBlock _ => []
  | .drw .. => [vf]
  | .ldBlock x => (List.finRange 16).filter fun r => r ≤ x

/-- The general registers an instruction reads under a SHIFT_SRC strap (the table of 10_state.md R22). -/
def readsV (src : ShiftSrc) : Instr → List RegIx
  | .cls | .jp _ | .ldImm .. | .ldI _ | .ldBlock _ => []
  | .seImm x _ | .sneImm x _ | .addImm x _ => [x]
  | .seReg x y | .orReg x y | .andReg x y | .xorReg x y => [x, y]
  | .addReg x y | .subReg x y | .subnReg x y | .drw x y _ => [x, y]
  | .shr x y | .shl x y => if src = .vx then [x] else [y]
  | .addI x | .ldF x | .ldB x => [x]
  | .stBlock x => (List.finRange 16).filter fun r => r ≤ x

/-- The next pc of each instruction (the table of 40_control_flow.md R110), as a number. -/
def nextPc (s : State) : Instr → Nat
  | .jp nnn => nnn.toNat
  | .seImm x nn => if s.readV x = nn then (s.pc.toNat + 4) % 4096 else (s.pc.toNat + 2) % 4096
  | .sneImm x nn => if s.readV x ≠ nn then (s.pc.toNat + 4) % 4096 else (s.pc.toNat + 2) % 4096
  | .seReg x y => if s.readV x = s.readV y then (s.pc.toNat + 4) % 4096 else (s.pc.toNat + 2) % 4096
  | .cls | .ldImm .. | .addImm .. => (s.pc.toNat + 2) % 4096
  | .orReg .. | .andReg .. | .xorReg .. | .addReg .. => (s.pc.toNat + 2) % 4096
  | .subReg .. | .shr .. | .subnReg .. | .shl .. => (s.pc.toNat + 2) % 4096
  | .ldI _ | .drw .. | .addI _ | .ldF _ | .ldB _ | .stBlock _ | .ldBlock _ => (s.pc.toNat + 2) % 4096

/-- The byte an address holds after an instruction, as a number: what a store put there, found by the address's offset d
from I mod 4096 (45_memory_block.md R210, R211; 20_memory.md R51), else the byte from before. -/
def byteAfter (i : Instr) (s : State) (a : Nat) : Nat :=
  let d := (a + (4096 - s.i.toNat % 4096)) % 4096
  let v := fun r => (s.readV r).toNat
  match i with
  | .ldB x => if d = 0 then v x / 100 else if d = 1 then v x / 10 % 10 else if d = 2 then v x % 10
    else (s.memRead a).toNat
  | .stBlock x => if h : d ≤ x.val then v ⟨d, Nat.lt_of_le_of_lt h x.isLt⟩ else (s.memRead a).toNat
  | .cls | .jp _ | .seImm .. | .sneImm .. | .seReg .. | .ldImm .. | .addImm .. => (s.memRead a).toNat
  | .orReg .. | .andReg .. | .xorReg .. | .addReg .. | .subReg .. | .shr .. => (s.memRead a).toNat
  | .subnReg .. | .shl .. | .ldI _ | .drw .. | .addI _ | .ldF _ | .ldBlock _ => (s.memRead a).toNat

/-- The families of unimplemented words (30_encoding.md R90), on the numbers of the fields. -/
def inUnimplementedFamily (w : Word) : Prop :=
  let cls := w.toNat / 4096
  let y := w.toNat / 16 % 16
  let n := w.toNat % 16
  let nn := w.toNat % 256
  (cls = 0x0 ∧ y ≠ 0xE) ∨ cls = 0x2 ∨ (cls = 0x8 ∧ (n = 0x0 ∨ (0x8 ≤ n ∧ n ≤ 0xD) ∨ n = 0xF)) ∨ cls = 0x9 ∨
    cls = 0xB ∨ cls = 0xC ∨ cls = 0xE ∨ (cls = 0xF ∧ nn ∉ [0x1E, 0x29, 0x33, 0x55, 0x65])

/-! Runs. -/

/-- A state in which no fault is latched: a good end needs it (60_exceptions.md R234). -/
def GoodStanding (s : State) : Prop := s.fault = false

/-- The parked end: pc = L, memory at L holds JP L, no fault is latched (70_reset_and_hazards.md R268 (a)). -/
def Parked (l : Addr) (s : State) : Prop :=
  s.pc = l ∧ decodeWord s.fetchWord = .ok (.jp l) ∧ GoodStanding s

/-- The state after a launch: clean reset with stated straps and FONT, then exactly one image of at most PROG_MAX bytes
(70_reset_and_hazards.md R273: CleanReset, ImageLoaded, NoFault, StrapsFixed, FontGiven). -/
def Launched (straps : Straps) (font : Font) (image : List Byte) (s : State) : Prop :=
  (State.resetWith straps font).load image = .next s

/-- The states a host that behaves (R273: HostBehaves) can meet: a reset, perhaps a load, then steps. -/
inductive Reachable : State → Prop where
  | reset (straps : Straps) (font : Font) : Reachable (.resetWith straps font)
  | load {s t : State} (image : List Byte) : Reachable s → s.load image = .next t → Reachable t
  | step {s t : State} : Reachable s → Machine.step s = .next t → Reachable t

/-- The Sink's own grid, kept from reset, equals FB (44_display.md R192). -/
def SinkAgrees (s : State) : Prop := Sink.replay fbBlank s.events = s.fb

/-- A latched fault belongs to a started machine, and its record describes the word that still stands at pc
(60_exceptions.md R232, R233). -/
def FaultRecordFits (s : State) : Prop :=
  s.fault = true → s.started = true ∧ s.frec = s.faultRecord s.fetchWord ∧ inUnimplementedFamily s.fetchWord

/-! The picture of a sprite, cell by cell (44_display.md R184 to R187). -/

/-- A cell of the framebuffer is visited by an n-row sprite with its origin at (bx, byy): it lies in the sprite's 8-by-n
box (R185, R186). -/
def inSprite (bx byy n px py : Nat) : Bool := bx ≤ px && px < bx + 8 && byy ≤ py && py < byy + n

/-- The sprite bit over a visited cell, the most significant bit of a row leftmost (R183). -/
def bitOver (byteOf : Nat → Byte) (bx byy px py : Nat) : Bool := (byteOf (py - byy)).getLsbD (7 - (px - bx))

/-- The visited cells in the order of the draw: the sprite's box, rows downward and bits left to right, less what falls
outside the framebuffer (R185, R186, R187). -/
def visitedCells (bx byy n : Nat) : List (Column × PixelRow) :=
  (List.range n).flatMap fun r => (List.range 8).filterMap fun k =>
    if h : bx + k < 64 ∧ byy + r < 32 then some (⟨bx + k, h.1⟩, ⟨byy + r, h.2⟩) else none

end Sys2Proof.Machine
end

