-- ==== Sys2Proof/Certificates/Slice0/Obligations.lean ====
section
/-! DEFINITION. The statements for the provers. Each docstring names the rule of the spec it formalises. Where a rule is
marked by the spec as its own decision (D<n> of 92_eei_decisions.md) or as derived, the statement is 'derived' and says
so. -/

open Sys2Proof Sys2Proof.Machine

/-! Decoding. -/

/-- R82: every word has exactly the slices the rule lists, as numbers. -/
def Obligations.DecoderSlicesEveryWord : Prop :=
  ∀ w : Word, (fields w).cls.toNat = (w.toNat >>> 12) &&& 0xF ∧ (fields w).x.toNat = (w.toNat >>> 8) &&& 0xF ∧
    (fields w).y.toNat = (w.toNat >>> 4) &&& 0xF ∧ (fields w).n.toNat = w.toNat &&& 0xF ∧
    (fields w).nn.toNat = w.toNat &&& 0x00FF ∧ (fields w).nnn.toNat = w.toNat &&& 0x0FFF

/-- 95_test_vectors.md section 2.1: words written out in the spec, with the verdict it gives each. -/
def Obligations.SpecWordsDecodeAsListed : Prop :=
  decodeWord 0x00E0 = .ok .cls ∧ decodeWord 0x01E5 = .ok .cls ∧ decodeWord 0x1234 = .ok (.jp 0x234) ∧
  decodeWord 0x332A = .ok (.seImm 3 0x2A) ∧ decodeWord 0x5AB7 = .ok (.seReg 10 11) ∧
  decodeWord 0x7205 = .ok (.addImm 2 0x05) ∧ decodeWord 0x8121 = .ok (.orReg 1 2) ∧
  decodeWord 0x812E = .ok (.shl 1 2) ∧ decodeWord 0xAFFF = .ok (.ldI 0xFFF) ∧ decodeWord 0xD12F = .ok (.drw 1 2 15) ∧
  decodeWord 0xF01E = .ok (.addI 0) ∧ decodeWord 0xF065 = .ok (.ldBlock 0) ∧
  decodeWord 0x0000 = .error .class0 ∧ decodeWord 0x2200 = .error .class2 ∧ decodeWord 0x8120 = .error .class8 ∧
  decodeWord 0x9120 = .error .class9 ∧ decodeWord 0xB200 = .error .classB ∧ decodeWord 0xC0FF = .error .classC ∧
  decodeWord 0xE19E = .error .classE ∧ decodeWord 0xF11F = .error .classF

/-- R84, with the table of R85: a word decodes to an instruction exactly when that instruction is what a row of the table
makes of the word's fields and the row's mask and match fit the word. (Decoding being a function, no word fits two rows;
and a word that fits none is rejected.) -/
def Obligations.DecodingSelectsTheOneMatchingRow : Prop :=
  ∀ (w : Word) (i : Instr), decodeWord w = .ok i ↔ i ∈ instrsOfFields (fields w) ∧ (rowOf i).matches w = true

/-- R86, R90: the rejected words are exactly the eight unimplemented families. -/
def Obligations.RejectedWordsAreTheUnimplementedFamilies : Prop :=
  ∀ w : Word, (∃ u, decodeWord w = .error u) ↔ inUnimplementedFamily w

/-- R80, R85: for every instruction, the bytes of its encoding decode to it, and what follows them is left over. -/
def Obligations.DecodingTheEncodingGivesTheInstruction : Prop :=
  ∀ (i : Instr) (rest : List Byte), decode (encodeBytes i ++ rest) = .ok (i, rest)

/-- R88 (a), (b) (the spec's decisions D11, D12): the encoding of what a word decodes to is that word with the nibbles
that are ignored under every strap at 0: both of CLS, the low one of SE Vx, Vy. Every other bit is kept, the y of SHR and
SHL among them, which R88 (c) counts as ignored under SHIFT_SRC = VX: that the encoder keeps it there is the model's choice
(log 19, 21), and CanonicalFormRunsAlikeUnderTheStrap speaks of the form with y = 0. -/
def Obligations.EncodingTheDecodedWordKeepsAllOperands : Prop :=
  ∀ (w : Word) (i : Instr), decodeWord w = .ok i →
    encode i = match i with
      | .cls => w &&& 0xF0F0
      | .seReg .. => w &&& 0xFFF0
      | _ => w

/-- R88 (c) (under the strap SHIFT_SRC, the spec's decision D13; that Instr holds y at all is log 19): the hardware runs
an instruction and its canonical form identically, and the word of the canonical form is the word with y = 0 for SHR and
SHL under SHIFT_SRC = VX, and the same word otherwise. -/
def Obligations.CanonicalFormRunsAlikeUnderTheStrap : Prop :=
  (∀ (i : Instr) (s : State), exec (i.toCanonical s.straps.shiftSrc) s = exec i s) ∧
  ∀ (i : Instr) (src : ShiftSrc), (i.toCanonical src).canonical src = true ∧
    encode (i.toCanonical src) = match src, i with
      | .vx, .shr .. | .vx, .shl .. => encode i &&& 0xFF0F
      | _, _ => encode i

/-! Reset, load, step. -/

/-- R34, R260, R261: from every state, a faulted one too, reset with given straps and FONT gives the start state. pc and FB
are the source's values; V, I, the rest of memory, FAULT and STARTED are the spec's decisions D6, D7, D8, D18; that the
straps are held in the state is the model's choice (log 2), and the marks are log 5 and log 6. FREC is left out: the spec
gives it no value. -/
def Obligations.ResetGivesTheStartState : Prop :=
  (∀ (s : State) (straps : Straps) (font : Font), ∃ t, s.serve (.reset straps font) = .next t ∧
    t.pc = 0x200 ∧ (∀ px py, t.fb.pixel px py = false) ∧ (∀ r, t.readV r = 0) ∧ t.i = 0 ∧
    (∀ (g : Fin 16) (k : Fin 5), t.memRead (5 * g.val + k.val) = font[g][k]) ∧
    (∀ a, 80 ≤ a → a < 4096 → t.memRead a = 0) ∧ t.fault = false ∧ t.started = false ∧ t.straps = straps ∧
    t.loaded = false ∧ t.events = []) ∧
  State.reset = State.resetWith strapsDefault fontDefault

/-- R263, with the bound of R264 (the spec's decision D18): the loader places the image from 0x200 upward and changes
nothing else but the load mark, which is the model's choice (log 5), in the hypothesis as in the result; an empty image is
legal, and then the first step fetches 0x0000 at 0x200 and takes the fault (as a next state: log 7). -/
def Obligations.LoaderPlacesTheImage : Prop :=
  (∀ (s : State) (image : List Byte), s.started = false → s.loaded = false → image.length ≤ 3584 →
    ∃ t, s.load image = .next t ∧ (∀ (j : Nat) (h : j < image.length), t.memRead (0x200 + j) = image[j]) ∧
      (∀ a, ea a < 0x200 ∨ 0x200 + image.length ≤ ea a → t.memRead a = s.memRead a) ∧
      KeepsV [] s t ∧ t.i = s.i ∧ t.pc = s.pc ∧ KeepsDisplay s t ∧ t.fault = s.fault ∧ t.frec = s.frec ∧
      t.started = s.started ∧ t.straps = s.straps ∧ t.loaded = true) ∧
  ∃ t u, State.reset.load [] = .next t ∧ step t = .next u ∧ u.fault = true ∧ u.frec.pc = 0x200 ∧ u.frec.word = 0x0000

/-- R264 (the spec's decision D18; the order in which the reasons are tried is the model's, log 5): a load after the first
step, a second load and an image of more than 3584 bytes are refused. -/
def Obligations.LoaderRefusesWhatItMust : Prop :=
  ∀ (s : State) (image : List Byte),
    (s.started = true → s.load image = .refused .loadAfterStart) ∧
    (s.started = false → s.loaded = true → s.load image = .refused .secondLoad) ∧
    (s.started = false → s.loaded = false → 3584 < image.length → s.load image = .refused .imageTooLong)

/-- R110, R55 (with the spec's decisions D4, D18): when the two bytes at pc decode to an instruction and no fault is
latched, the step is that instruction's execution in the same state with STARTED set. -/
def Obligations.StepRunsTheDecodedInstruction : Prop :=
  ∀ (s : State) (i : Instr) (rest : List Byte), s.fault = false →
    decode (s.memRead s.pc.toNat :: s.memRead (s.pc.toNat + 1) :: rest) = .ok (i, rest) →
    step s = exec i { s with started := true }

/-- R52, R54 (the spec's decision D5), R55: the fetched word is the byte at pc times 256 plus the byte at
(pc + 1) mod 4096. -/
def Obligations.FetchIsBigEndianAndWraps : Prop :=
  ∀ s : State, s.fetchWord.toNat = 256 * (s.memRead s.pc.toNat).toNat + (s.memRead ((s.pc.toNat + 1) % 4096)).toNat

/-- The host's placement of a word (log 1): the next step of a machine without a latched fault runs it. -/
def Obligations.PlacedWordIsTheNextToRun : Prop :=
  ∀ (s : State) (w : Word) (i : Instr), s.fault = false → decodeWord w = .ok i →
    step (s.withFetchWord 16 w.toNat) = exec i (s.withFetchWord 16 w.toNat).markStarted

/-- R232, R233 (the spec's decision D8; that entry is a next state is log 7): a word that decodes to nothing latches the
fault with its record and changes nothing else but STARTED; the step answers fault with no event. -/
def Obligations.UnimplementedWordTakesTheFault : Prop :=
  ∀ (s : State) (u : Unimplemented), s.fault = false → decodeWord s.fetchWord = .error u →
    ∃ t, step s = .next t ∧ t.fault = true ∧ t.frec.cause.number = 1 ∧ t.frec.pc = s.pc ∧
      t.frec.word = s.fetchWord ∧ t.frec.cls.toNat = s.fetchWord.toNat / 4096 ∧
      t.frec.x.toNat = s.fetchWord.toNat / 256 % 16 ∧ t.frec.y.toNat = s.fetchWord.toNat / 16 % 16 ∧
      t.frec.n.toNat = s.fetchWord.toNat % 16 ∧ t.frec.nn.toNat = s.fetchWord.toNat % 256 ∧
      t.frec.nnn.toNat = s.fetchWord.toNat % 4096 ∧
      OnlyPc s { t with fault := s.fault, frec := s.frec, started := s.started } ∧ t.pc = s.pc ∧ t.started = true ∧
      s.stepAnswer = some (.fault, [])

/-- R234 (the spec's decision D8; that the request answers a next state is log 7): while FAULT = 1 a step request changes nothing, emits nothing, answers fault, and the
driver reads the same record. -/
def Obligations.LatchedFaultStopsTheMachine : Prop :=
  ∀ s : State, s.fault = true → step s = .next s ∧ s.stepAnswer = some (.fault, []) ∧
    s.surfacedFault = some (.unimplementedInstruction s.frec)

/-- R231, R234, R237, R266 (the spec's decisions D8 for the sticky latch, D17, D22): every step finishes, and FAULT is 1
after it exactly when it was 1 before or the fetched word is unimplemented. That a step which takes the fault, and a
request to a machine whose latch is set, answer a NEXT state is the model's choice (log 7). -/
def Obligations.EveryStepFinishesAndOnlyUnimplementedWordsFault : Prop :=
  ∀ s : State, ∃ t, step s = .next t ∧ (t.fault = true ↔ s.fault = true ∨ inUnimplementedFamily s.fetchWord)

/-- R266 (the spec's decision D17; the status and the events of one step are read from the state after it: log 6, 7): a
step that executes an instruction answers ok and exactly the events which that instruction appends to the log. -/
def Obligations.ExecutingStepAnswersOkWithItsEvents : Prop :=
  ∀ (s : State) (i : Instr), s.fault = false → decodeWord s.fetchWord = .ok i →
    ∃ t es, step s = .next t ∧ exec i { s with started := true } = .next t ∧ t.events = s.events ++ es ∧
      s.stepAnswer = some (.ok, es)

/-- R231, R237, R28, R261: every instruction, in every state, completes, and leaves FAULT, FREC, STARTED, the straps and
the load mark alone (the straps as state are log 2, the load mark log 5). -/
def Obligations.EveryInstructionCompletesAndKeepsControlState : Prop :=
  ∀ (i : Instr) (s : State), ∃ t, exec i s = .next t ∧ KeepsControl s t

/-- R32, R261 (the spec's decisions D13, D18; the straps as state are log 2, the load mark log 5): a step never changes the straps or the load mark, and after a step that
found no fault STARTED is 1. -/
def Obligations.StepKeepsStrapsAndSetsStarted : Prop :=
  ∀ s t : State, step s = .next t →
    t.straps = s.straps ∧ t.loaded = s.loaded ∧ (s.fault = false → t.started = true) ∧
    (s.fault = true → t.started = s.started)

/-- R268 (a) (the spec's decision D24): a parked machine that has started is left whole by a step, with status ok and no
event. -/
def Obligations.ParkedMachineStaysParked : Prop :=
  ∀ (l : Addr) (s : State), Parked l s → s.started = true → step s = .next s ∧ s.stepAnswer = some (.ok, [])

/-! Control flow. -/

/-- R111. -/
def Obligations.JumpSetsPcExactly : Prop :=
  (∀ nnn : Addr, decodeWord (0x1#4 ++ nnn) = .ok (.jp nnn)) ∧
  ∀ (nnn : Addr) (s : State), ∃ t, exec (.jp nnn) s = .next t ∧ t.pc = nnn ∧ OnlyPc s t

/-- R112, R113. -/
def Obligations.ImmediateSkipsFollowTheComparison : Prop :=
  (∀ (x : Nibble) (nn : Byte), decodeWord (0x3#4 ++ x ++ nn) = .ok (.seImm (regOf x) nn) ∧
    decodeWord (0x4#4 ++ x ++ nn) = .ok (.sneImm (regOf x) nn)) ∧
  ∀ (x : RegIx) (nn : Byte) (s : State),
    (∃ t, exec (.seImm x nn) s = .next t ∧ OnlyPc s t ∧
      t.pc.toNat = if s.readV x = nn then (s.pc.toNat + 4) % 4096 else (s.pc.toNat + 2) % 4096) ∧
    (∃ t, exec (.sneImm x nn) s = .next t ∧ OnlyPc s t ∧
      t.pc.toNat = if s.readV x = nn then (s.pc.toNat + 2) % 4096 else (s.pc.toNat + 4) % 4096)

/-- R114 (that n is ignored is the spec's decision D12). -/
def Obligations.RegisterSkipFollowsTheComparison : Prop :=
  (∀ x y n : Nibble, decodeWord (0x5#4 ++ x ++ y ++ n) = .ok (.seReg (regOf x) (regOf y))) ∧
  ∀ (x y : RegIx) (s : State), ∃ t, exec (.seReg x y) s = .next t ∧ OnlyPc s t ∧
    t.pc.toNat = if s.readV x = s.readV y then (s.pc.toNat + 4) % 4096 else (s.pc.toNat + 2) % 4096

/-- R110: the next pc of every instruction is the one its row of the table gives. -/
def Obligations.PcFollowsTheNextPcTable : Prop :=
  ∀ (i : Instr) (s t : State), exec i s = .next t → t.pc.toNat = nextPc s i

/-! Register-immediate. -/

/-- R130. -/
def Obligations.LoadImmediateWritesTheRegister : Prop :=
  (∀ (x : Nibble) (nn : Byte), decodeWord (0x6#4 ++ x ++ nn) = .ok (.ldImm (regOf x) nn)) ∧
  ∀ (x : RegIx) (nn : Byte) (s : State), ∃ t, exec (.ldImm x nn) s = .next t ∧ t.readV x = nn ∧ OnlyV [x] s t

/-- R131: wraps mod 256, and VF, unless it is Vx itself, is among the registers left alone. -/
def Obligations.AddImmediateWrapsWithoutFlag : Prop :=
  (∀ (x : Nibble) (nn : Byte), decodeWord (0x7#4 ++ x ++ nn) = .ok (.addImm (regOf x) nn)) ∧
  ∀ (x : RegIx) (nn : Byte) (s : State), ∃ t, exec (.addImm x nn) s = .next t ∧
    (t.readV x).toNat = ((s.readV x).toNat + nn.toNat) % 256 ∧ OnlyV [x] s t

/-! Register-register ALU. -/

/-- R141, R142, R143: bit by bit, and no flag. -/
def Obligations.LogicWorksBitByBitWithoutFlag : Prop :=
  (∀ x y : Nibble, decodeWord (0x8#4 ++ x ++ y ++ 0x1#4) = .ok (.orReg (regOf x) (regOf y)) ∧
    decodeWord (0x8#4 ++ x ++ y ++ 0x2#4) = .ok (.andReg (regOf x) (regOf y)) ∧
    decodeWord (0x8#4 ++ x ++ y ++ 0x3#4) = .ok (.xorReg (regOf x) (regOf y))) ∧
  ∀ (x y : RegIx) (s : State),
    (∃ t, exec (.orReg x y) s = .next t ∧ OnlyV [x] s t ∧
      ∀ k, (t.readV x).getLsbD k = ((s.readV x).getLsbD k || (s.readV y).getLsbD k)) ∧
    (∃ t, exec (.andReg x y) s = .next t ∧ OnlyV [x] s t ∧
      ∀ k, (t.readV x).getLsbD k = ((s.readV x).getLsbD k && (s.readV y).getLsbD k)) ∧
    (∃ t, exec (.xorReg x y) s = .next t ∧ OnlyV [x] s t ∧
      ∀ k, (t.readV x).getLsbD k = ((s.readV x).getLsbD k ^^ (s.readV y).getLsbD k))

/-- R144 (with x = 15 the flag remains). -/
def Obligations.AddRegisterSetsCarry : Prop :=
  (∀ x y : Nibble, decodeWord (0x8#4 ++ x ++ y ++ 0x4#4) = .ok (.addReg (regOf x) (regOf y))) ∧
  ∀ (x y : RegIx) (s : State), ∃ t, exec (.addReg x y) s = .next t ∧ OnlyV [x, vf] s t ∧
    (x ≠ vf → (t.readV x).toNat = ((s.readV x).toNat + (s.readV y).toNat) % 256) ∧
    (t.readV vf).toNat = if (s.readV x).toNat + (s.readV y).toNat > 255 then 1 else 0

/-- R145, R147: the flag is the strict comparison, 0 on equal operands (with x = 15 the flag remains). -/
def Obligations.SubtractionsSetTheStrictComparison : Prop :=
  (∀ x y : Nibble, decodeWord (0x8#4 ++ x ++ y ++ 0x5#4) = .ok (.subReg (regOf x) (regOf y)) ∧
    decodeWord (0x8#4 ++ x ++ y ++ 0x7#4) = .ok (.subnReg (regOf x) (regOf y))) ∧
  ∀ (x y : RegIx) (s : State),
    (∃ t, exec (.subReg x y) s = .next t ∧ OnlyV [x, vf] s t ∧
      (x ≠ vf → ((t.readV x).toNat : Int) = ((s.readV x).toNat - (s.readV y).toNat : Int) % 256) ∧
      (t.readV vf).toNat = if (s.readV x).toNat > (s.readV y).toNat then 1 else 0) ∧
    (∃ t, exec (.subnReg x y) s = .next t ∧ OnlyV [x, vf] s t ∧
      (x ≠ vf → ((t.readV x).toNat : Int) = ((s.readV y).toNat - (s.readV x).toNat : Int) % 256) ∧
      (t.readV vf).toNat = if (s.readV y).toNat > (s.readV x).toNat then 1 else 0)

/-- R146, R148 (straps: the spec's decisions D13, D25; x = 15: D9): the source is V[x] or V[y] by SHIFT_SRC; the result is
the half, or the double mod 256, and VF the bit shifted out. -/
def Obligations.ShiftsMoveOneBitIntoTheFlag : Prop :=
  (∀ x y : Nibble, decodeWord (0x8#4 ++ x ++ y ++ 0x6#4) = .ok (.shr (regOf x) (regOf y)) ∧
    decodeWord (0x8#4 ++ x ++ y ++ 0xE#4) = .ok (.shl (regOf x) (regOf y))) ∧
  ∀ (x y : RegIx) (s : State), let src := if s.straps.shiftSrc = .vx then (s.readV x).toNat else (s.readV y).toNat
    (∃ t, exec (.shr x y) s = .next t ∧ OnlyV [x, vf] s t ∧ (x ≠ vf → (t.readV x).toNat = src / 2) ∧
      (t.readV vf).toNat = src % 2) ∧
    (∃ t, exec (.shl x y) s = .next t ∧ OnlyV [x, vf] s t ∧ (x ≠ vf → (t.readV x).toNat = 2 * src % 256) ∧
      (t.readV vf).toNat = src / 128)

/-! Index register. -/

/-- R170. -/
def Obligations.LoadIndexZeroExtends : Prop :=
  (∀ nnn : Addr, decodeWord (0xA#4 ++ nnn) = .ok (.ldI nnn)) ∧
  ∀ (nnn : Addr) (s : State), ∃ t, exec (.ldI nnn) s = .next t ∧ t.i.toNat = nnn.toNat ∧ OnlyI s t

/-- R171, R172 (the spec's decisions D6, D19): I wraps at 16 bits without a flag, and LD F takes the whole of V[x]. -/
def Obligations.IndexArithmeticWrapsWithoutFlag : Prop :=
  (∀ x : Nibble, decodeWord (0xF#4 ++ x ++ 0x1E#8) = .ok (.addI (regOf x)) ∧
    decodeWord (0xF#4 ++ x ++ 0x29#8) = .ok (.ldF (regOf x))) ∧
  ∀ (x : RegIx) (s : State),
    (∃ t, exec (.addI x) s = .next t ∧ t.i.toNat = (s.i.toNat + (s.readV x).toNat) % 65536 ∧ OnlyI s t) ∧
    (∃ t, exec (.ldF x) s = .next t ∧ t.i.toNat = 5 * (s.readV x).toNat ∧ OnlyI s t)

/-! Display. -/

/-- R181 (the spec's decisions D11, D16; the event log is log 6): every pixel 0, one clear event, nothing else. -/
def Obligations.ClearScreenClearsAndReportsOnce : Prop :=
  (∀ x n : Nibble, decodeWord (0x0#4 ++ x ++ 0xE#4 ++ n) = .ok .cls) ∧
  ∀ s : State, ∃ t, exec .cls s = .next t ∧ (∀ px py, t.fb.pixel px py = false) ∧ t.events = s.events ++ [.clear] ∧
    WentToNextWord s t ∧ KeepsV [] s t ∧ t.i = s.i ∧ KeepsMem s t ∧ KeepsControl s t

/-- R183, with R184 to R188 which it names: against a picture with no loops and no early exits. Each pixel is XORed with the
sprite bit over it where the sprite's box covers it; VF is 1 when some visited cell collides by its value before the draw,
else 0; one event for each visited cell under a 1 bit, in visiting order and with the new value, then one present; V but
VF, I, memory and the control state are left alone. (The collision straps and the events rest on the spec's decisions D13,
D15, D16, D23; the event log is log 6.) -/
def Obligations.DrawCompositesTheClippedSprite : Prop :=
  (∀ x y n : Nibble, decodeWord (0xD#4 ++ x ++ y ++ n) = .ok (.drw (regOf x) (regOf y) (regOf n))) ∧
  ∀ (x y : RegIx) (n : Fin 16) (s : State), ∃ t, exec (.drw x y n) s = .next t ∧
    let bx := (s.readV x).toNat % 64
    let byy := (s.readV y).toNat % 32
    let bit := fun px py : Nat => bitOver (fun r => s.memRead (s.i.toNat + r)) bx byy px py
    let cells := visitedCells bx byy n.val
    (∀ (px : Column) (py : PixelRow),
      t.fb.pixel px py = (s.fb.pixel px py ^^ (inSprite bx byy n.val px.val py.val && bit px.val py.val))) ∧
    (t.readV vf = if cells.any (fun c => s.fb.pixel c.1 c.2 &&
        (s.straps.collisionRule == .anyPreset || bit c.1.val c.2.val)) then 1 else 0) ∧
    t.events = s.events ++
      ((cells.filter fun c => bit c.1.val c.2.val).map fun c => .setPixel c.1 c.2 (t.fb.pixel c.1 c.2)) ++ [.present] ∧
    WentToNextWord s t ∧ KeepsV [vf] s t ∧ t.i = s.i ∧ KeepsMem s t ∧ KeepsControl s t

/-- R189 (marked by the spec as derived): the same sprite drawn twice at the same place gives back every pixel; and under
ERASE_ONLY, if the first draw lit a pixel, the second ends with VF = 1. -/
def Obligations.DrawingTwiceRestoresThePicture : Prop :=
  ∀ (x y : RegIx) (n : Fin 16) (s t u : State), x ≠ vf → y ≠ vf →
    exec (.drw x y n) s = .next t → exec (.drw x y n) t = .next u →
    KeepsFb s u ∧ (s.straps.collisionRule = .eraseOnly →
      (∃ px py, s.fb.pixel px py = false ∧ t.fb.pixel px py = true) → u.readV vf = 1)

/-- R180, R188, R192, R66: the event log only grows; a DRW adds exactly one present and no clear, a CLS exactly one clear
and no present, every other instruction neither. (That the events are kept in the state is log 6.) -/
def Obligations.EventsCountDrawsAndClears : Prop :=
  ∀ (i : Instr) (s t : State), exec i s = .next t → ∃ es, t.events = s.events ++ es ∧
    es.count .present = (match i with | .drw .. => 1 | _ => 0) ∧ es.count .clear = (match i with | .cls => 1 | _ => 0)

/-- R192 (marked by the spec as derived): the Sink's grid, kept from the events alone, equals FB after every step if it did
before (the event log is log 6). -/
def Obligations.StepKeepsTheSinkInAgreement : Prop :=
  ∀ s t : State, SinkAgrees s → step s = .next t → SinkAgrees t

/-! Memory. -/

/-- R210: hundreds, tens and ones at EA(I), EA(I+1), EA(I+2), and no other byte. -/
def Obligations.BcdStoresThreeDigits : Prop :=
  (∀ x : Nibble, decodeWord (0xF#4 ++ x ++ 0x33#8) = .ok (.ldB (regOf x))) ∧
  ∀ (x : RegIx) (s : State), ∃ t, exec (.ldB x) s = .next t ∧
    (t.memRead s.i.toNat).toNat = (s.readV x).toNat / 100 ∧
    (t.memRead (s.i.toNat + 1)).toNat = (s.readV x).toNat / 10 % 10 ∧
    (t.memRead (s.i.toNat + 2)).toNat = (s.readV x).toNat % 10 ∧
    (∀ a, ea a ≠ ea s.i.toNat → ea a ≠ ea (s.i.toNat + 1) → ea a ≠ ea (s.i.toNat + 2) → t.memRead a = s.memRead a) ∧
    WentToNextWord s t ∧ KeepsV [] s t ∧ t.i = s.i ∧ KeepsDisplay s t ∧ KeepsControl s t

/-- R211 (the spec's decisions D13, D14): V[k] at EA(I + k) for k from 0 to x, no other byte; I by LOADSTORE_INC. -/
def Obligations.BlockStoreWritesV0ToVx : Prop :=
  (∀ x : Nibble, decodeWord (0xF#4 ++ x ++ 0x55#8) = .ok (.stBlock (regOf x))) ∧
  ∀ (x : RegIx) (s : State), ∃ t, exec (.stBlock x) s = .next t ∧
    (∀ k : RegIx, k ≤ x → t.memRead (s.i.toNat + k.val) = s.readV k) ∧
    (∀ a, (∀ k : RegIx, k ≤ x → ea a ≠ ea (s.i.toNat + k.val)) → t.memRead a = s.memRead a) ∧
    (t.i.toNat = if s.straps.loadStoreInc = .inc then (s.i.toNat + x.val + 1) % 65536 else s.i.toNat) ∧
    WentToNextWord s t ∧ KeepsV [] s t ∧ KeepsDisplay s t ∧ KeepsControl s t

/-- R212 (the spec's decisions D13, D14): V[k] from EA(I + k) for k from 0 to x, no other register; I by LOADSTORE_INC. -/
def Obligations.BlockLoadReadsV0ToVx : Prop :=
  (∀ x : Nibble, decodeWord (0xF#4 ++ x ++ 0x65#8) = .ok (.ldBlock (regOf x))) ∧
  ∀ (x : RegIx) (s : State), ∃ t, exec (.ldBlock x) s = .next t ∧
    (∀ k : RegIx, t.readV k = if k ≤ x then s.memRead (s.i.toNat + k.val) else s.readV k) ∧
    (t.i.toNat = if s.straps.loadStoreInc = .inc then (s.i.toNat + x.val + 1) % 65536 else s.i.toNat) ∧
    WentToNextWord s t ∧ KeepsMem s t ∧ KeepsDisplay s t ∧ KeepsControl s t

/-- R51 (the spec's decision D2), R52, R53, in numbers: every address is reduced mod 4096 at the access, a read of any
address is the read of its low 12 bits, a write sets exactly the one cell, and I = 0x1005 reaches Mem[0x005]
through LD [I] and LD Vx, [I] (R211, R212). -/
def Obligations.EveryAccessReducesItsAddress : Prop :=
  (∀ a, ea a = a % 4096) ∧
  (∀ (s : State) (a : Nat), s.memRead a = s.memRead (a % 4096)) ∧
  (∀ (s : State) (a : Nat) (b : Byte) (c : Nat),
    (s.memWrite a b).memRead c = if c % 4096 = a % 4096 then b else s.memRead c) ∧
  ∀ s : State, s.i = 0x1005 →
    (∃ t, exec (.stBlock 0) s = .next t ∧ t.memRead 0x005 = s.readV 0) ∧
    ∃ t, exec (.ldBlock 0) s = .next t ∧ t.readV 0 = s.memRead 0x005

/-- R64 (marked by the spec as derived): after any instruction the very next fetch sees every byte that it stored: the
fetched word is made of the bytes then at its next pc, each the one stored by LD [I] or LD B if they stored there, both of
them, one of them or none. -/
def Obligations.StoredWordIsFetchedNext : Prop :=
  ∀ (i : Instr) (s t : State), exec i s = .next t →
    t.fetchWord.toNat = 256 * byteAfter i s (nextPc s i) + byteAfter i s ((nextPc s i + 1) % 4096)

/-- Memory stays in its canonical form through every step (the form is the model's choice, log 3; R30, R53). -/
def Obligations.StepKeepsMemoryCanonical : Prop :=
  ∀ s t : State, s.mem.wf → step s = .next t → t.mem.wf

/-! Whole-machine rules. -/

/-- R22, R27, R11: no instruction changes a general register that its row of the table does not list. -/
def Obligations.OnlyListedRegistersAreWritten : Prop :=
  ∀ (i : Instr) (s t : State), exec i s = .next t → KeepsV (writesV i) s t

/-- R11, R23, R30, R31, R180: I is written by LD I, ADD I, LD F and, under LOADSTORE_INC = INC, the block instructions;
memory by LD B and LD [I]; the framebuffer and the event list by CLS and DRW; nothing else writes them. -/
def Obligations.OnlyTheNamedInstructionsWriteEachPart : Prop :=
  ∀ (i : Instr) (s t : State), exec i s = .next t →
    ((match i with
      | .ldI _ | .addI _ | .ldF _ => False
      | .stBlock _ | .ldBlock _ => s.straps.loadStoreInc = .keep
      | _ => True) → t.i = s.i) ∧
    ((match i with | .ldB _ | .stBlock _ => False | _ => True) → KeepsMem s t) ∧
    ((match i with | .cls | .drw .. => False | _ => True) → KeepsDisplay s t)

/-- R22, R28, R32: two states that agree on pc, I, memory, framebuffer, straps and the registers an instruction's row lists
as read get the same pc, I, memory, framebuffer, written registers and events from it, whatever their other registers,
FAULT, FREC, STARTED, load mark and event log. -/
def Obligations.ResultsDependOnListedReadsOnly : Prop :=
  ∀ (i : Instr) (s₁ s₂ t₁ t₂ : State), s₁.pc = s₂.pc → s₁.i = s₂.i → s₁.mem = s₂.mem → s₁.fb = s₂.fb →
    s₁.straps = s₂.straps → (∀ r ∈ readsV s₁.straps.shiftSrc i, s₁.readV r = s₂.readV r) →
    exec i s₁ = .next t₁ → exec i s₂ = .next t₂ →
    t₁.pc = t₂.pc ∧ t₁.i = t₂.i ∧ t₁.mem = t₂.mem ∧ t₁.fb = t₂.fb ∧
    (∀ r ∈ writesV i, t₁.readV r = t₂.readV r) ∧
    ∃ es, t₁.events = s₁.events ++ es ∧ t₂.events = s₂.events ++ es

/-- R232, R234 (the spec's decision D8): the record of a latched fault goes on describing the word at pc through every
step. -/
def Obligations.StepKeepsTheFaultRecordFitting : Prop :=
  ∀ s t : State, FaultRecordFits s → step s = .next t → FaultRecordFits t

/-- The invariants hold right after every reset, at State.reset among them. The canonical form of memory is the model's
choice (log 3), and so is the event log that the Sink's agreement is said of (log 6). -/
def Obligations.InvariantsHoldAfterReset : Prop :=
  (State.reset.mem.wf ∧ SinkAgrees .reset ∧ FaultRecordFits .reset) ∧
  ∀ (straps : Straps) (font : Font),
    (State.resetWith straps font).mem.wf ∧ SinkAgrees (.resetWith straps font) ∧
    FaultRecordFits (.resetWith straps font)

/-- A load that is not refused keeps the three invariants, from every state (R263; the canonical form is log 3, the load
mark log 5, the event log log 6). -/
def Obligations.LoadKeepsTheInvariants : Prop :=
  ∀ (s : State) (image : List Byte) (t : State), s.load image = .next t →
    (s.mem.wf → t.mem.wf) ∧ (SinkAgrees s → SinkAgrees t) ∧ (FaultRecordFits s → FaultRecordFits t)

/-- Every state that resets, loads and steps can lead to meets the invariants. The host is that of R273 (HostBehaves),
written as functions beside step (log 17); the canonical form of memory (log 3) and the event log (log 6) are the model's
choices. -/
def Obligations.ReachableStatesMeetTheInvariants : Prop :=
  ∀ s : State, Reachable s → s.mem.wf ∧ SinkAgrees s ∧ FaultRecordFits s
end

