-- ==== Sys2Proof/Laws/Memory.lean ====
section
/-! SUPPORT. The laws of memory: what a read sees of a write, that every operation keeps the canonical form, and that
canonical memories with equal contents are equal data (spec 20_memory.md R52, R53). -/

namespace Sys2Proof.Machine

theorem ea_lt (a : Nat) : ea a < memSize := Nat.mod_lt _ (by decide)

@[simp] theorem ea_ea (a : Nat) : ea (ea a) = ea a := Nat.mod_mod _ _

namespace Memory

@[simp] theorem read_nil (a : Nat) : Memory.read [] a = Memory.unlisted a := rfl

theorem read_cons (c : Host.Cell) (m : Memory) (a : Nat) :
    Memory.read (c :: m) a = if c.1 = a then c.2 else Memory.read m a := rfl

theorem read_insert (m : Memory) (a : Nat) (b : Byte) (c : Nat) :
    (Memory.insert a b m).read c = if a = c then b else m.read c := by
  induction m with
  | nil => simp [Memory.insert, read_cons]
  | cons d m ih =>
    unfold Memory.insert
    split
    · simp [read_cons]
    · split
      · subst a
        by_cases hc : d.1 = c <;> simp [read_cons, hc]
      · by_cases hc : d.1 = c
        · have : ¬ a = c := by omega
          simp [read_cons, hc, this]
        · simp [read_cons, hc, ih]

theorem read_filter_ne (m : Memory) (a c : Nat) :
    Memory.read (m.filter fun d => d.1 ≠ a) c = if a = c then Memory.unlisted c else m.read c := by
  induction m with
  | nil => simp
  | cons d m ih =>
    by_cases hd : d.1 = a
    · rw [List.filter_cons_of_neg (by simpa using hd), ih]
      by_cases hc : a = c
      · simp [hc]
      · have : ¬ d.1 = c := by omega
        simp [read_cons, hc, this]
    · rw [List.filter_cons_of_pos (by simpa using hd), read_cons, ih, read_cons]
      by_cases hc : a = c
      · have : ¬ d.1 = c := by omega
        simp [hc, this]
      · simp [hc]

/-- The one law of a cell write: it sets its cell and leaves every other. -/
theorem read_write (m : Memory) (a : Nat) (b : Byte) (c : Nat) :
    (m.write a b).read c = if a = c then b else m.read c := by
  unfold Memory.write
  split
  · rename_i hb
    rw [read_filter_ne]
    by_cases hc : a = c
    · simp [hc, hb]
    · simp [hc]
  · exact read_insert m a b c

theorem mem_insert {m : Memory} {a : Nat} {b : Byte} {c : Host.Cell} (h : c ∈ Memory.insert a b m) :
    c = (a, b) ∨ c ∈ m := by
  induction m with
  | nil => exact .inl (by simpa [Memory.insert] using h)
  | cons d m ih =>
    unfold Memory.insert at h
    split at h
    · simpa using h
    · split at h
      · rcases List.mem_cons.mp h with h | h
        · exact .inl h
        · exact .inr (List.mem_cons_of_mem _ h)
      · rcases List.mem_cons.mp h with h | h
        · exact .inr (by simp [h])
        · exact (ih h).imp_right (List.mem_cons_of_mem _)

theorem pairwise_insert {m : Memory} (h : m.Pairwise fun c d => c.1 < d.1) (a : Nat) (b : Byte) :
    (Memory.insert a b m).Pairwise fun c d => c.1 < d.1 := by
  induction m with
  | nil => simp [Memory.insert]
  | cons d m ih =>
    obtain ⟨hd, hm⟩ := List.pairwise_cons.mp h
    unfold Memory.insert
    split
    · rename_i hlt
      refine List.pairwise_cons.mpr ⟨fun c hc => ?_, h⟩
      rcases List.mem_cons.mp hc with rfl | hc
      · exact hlt
      · exact Nat.lt_trans hlt (hd c hc)
    · split
      · rename_i heq
        exact List.pairwise_cons.mpr ⟨fun c hc => by simpa [heq] using hd c hc, hm⟩
      · refine List.pairwise_cons.mpr ⟨fun c hc => ?_, ih hm⟩
        rcases mem_insert hc with rfl | hc
        · simp only; omega
        · exact hd c hc

theorem wf_nil : Memory.wf [] := by simp [Memory.wf]

/-- A cell write keeps the canonical form. -/
theorem wf_write {m : Memory} (h : m.wf) {a : Nat} (ha : a < memSize) (b : Byte) : (m.write a b).wf := by
  unfold Memory.write
  split
  · exact ⟨h.1.filter _, fun c hc => h.2 c (List.mem_of_mem_filter hc)⟩
  · rename_i hb
    refine ⟨pairwise_insert h.1 a b, fun c hc => ?_⟩
    rcases mem_insert hc with rfl | hc
    · exact ⟨ha, hb⟩
    · exact h.2 c hc

theorem readByte_writeByte (m : Memory) (a : Nat) (b : Byte) (c : Nat) :
    (m.writeByte a b).readByte c = if ea a = ea c then b else m.readByte c := read_write m (ea a) b (ea c)

theorem wf_writeByte {m : Memory} (h : m.wf) (a : Nat) (b : Byte) : (m.writeByte a b).wf := wf_write h (ea_lt a) b

theorem wf_writeBytes {m : Memory} (h : m.wf) (a : Nat) (bs : List Byte) : (m.writeBytes a bs).wf := by
  induction bs generalizing m a with
  | nil => exact h
  | cons b bs ih => exact ih (wf_writeByte h a b) (a + 1)

/-- The bytes of a run placed from address a upward, when the run fits the address space. -/
theorem readByte_writeBytes (m : Memory) (a : Nat) (bs : List Byte) (hfit : a + bs.length ≤ memSize) (c : Nat) :
    (m.writeBytes a bs).readByte c =
      if h : a ≤ ea c ∧ ea c < a + bs.length then bs[ea c - a]'(by omega) else m.readByte c := by
  induction bs generalizing m a with
  | nil => simp only [Memory.writeBytes, List.length_nil]; rw [dif_neg (by omega)]
  | cons b bs ih =>
    have hlen : (b :: bs).length = bs.length + 1 := rfl
    have haddr : ea a = a := Nat.mod_eq_of_lt (by omega)
    simp only [Memory.writeBytes]
    rw [ih _ _ (by omega), readByte_writeByte, haddr]
    by_cases h1 : a + 1 ≤ ea c ∧ ea c < a + 1 + bs.length
    · rw [dif_pos h1, dif_pos (by omega)]
      have : ea c - a = (ea c - (a + 1)) + 1 := by omega
      simp only [this, List.getElem_cons_succ]
    · rw [dif_neg h1]
      by_cases h2 : a = ea c
      · rw [if_pos h2, dif_pos (by omega)]
        have : ea c - a = 0 := by omega
        simp only [this, List.getElem_cons_zero]
      · rw [if_neg h2, dif_neg (by omega)]

theorem read_eq_unlisted {m : Memory} {a : Nat} (h : ∀ c ∈ m, a < c.1) : m.read a = Memory.unlisted a := by
  induction m with
  | nil => rfl
  | cons c m ih =>
    have hc : ¬ c.1 = a := Nat.ne_of_gt (h c (by simp))
    rw [read_cons, if_neg hc]
    exact ih fun d hd => h d (by simp [hd])

/-- Canonical memories with equal contents are equal data. -/
theorem eq_of_read_eq {m k : Memory} (hm : m.wf) (hk : k.wf) (h : ∀ a, m.read a = k.read a) : m = k := by
  have step : ∀ {c : Host.Cell} {m k : Memory}, Memory.wf (c :: m) → (∀ d ∈ k, c.1 < d.1) →
      ¬ Memory.read (c :: m) c.1 = k.read c.1 := fun {c m k} hw hlt heq =>
    (hw.2 c (by simp)).2 (by rw [← read_eq_unlisted hlt, ← heq]; simp [read_cons])
  induction m generalizing k with
  | nil =>
    cases k with
    | nil => rfl
    | cons d k => exact absurd (h d.1).symm (step hk (by simp))
  | cons c m ih =>
    cases k with
    | nil => exact absurd (h c.1) (step hm (by simp))
    | cons d k =>
      obtain ⟨hcm, hm'⟩ := List.pairwise_cons.mp hm.1
      obtain ⟨hdk, hk'⟩ := List.pairwise_cons.mp hk.1
      rcases Nat.lt_trichotomy c.1 d.1 with hlt | heq | hgt
      · refine absurd (h c.1) (step hm fun e he => ?_)
        rcases List.mem_cons.mp he with rfl | he
        · exact hlt
        · exact Nat.lt_trans hlt (hdk e he)
      · have hval : c.2 = d.2 := by simpa [read_cons, heq] using h d.1
        have hcd : c = d := Prod.ext heq hval
        subst hcd
        refine congrArg (c :: ·) (ih ⟨hm', fun e he => hm.2 e (by simp [he])⟩
          ⟨hk', fun e he => hk.2 e (by simp [he])⟩ fun a => ?_)
        by_cases ha : a ≤ c.1
        · rw [read_eq_unlisted fun e he => Nat.lt_of_le_of_lt ha (hcm e he),
            read_eq_unlisted fun e he => Nat.lt_of_le_of_lt ha (hdk e he)]
        · have hne : ¬ c.1 = a := by omega
          simpa [read_cons, hne] using h a
      · refine absurd (h d.1).symm (step hk fun e he => ?_)
        rcases List.mem_cons.mp he with rfl | he
        · exact hgt
        · exact Nat.lt_trans hgt (hcm e he)

end Memory

/-! The block operations. -/

theorem regNumber_val {k : Nat} (h : k < 16) : (regNumber k).val = k := Nat.mod_eq_of_lt h

theorem wf_storeBlock (v : RegIx → Byte) (base k : Nat) {m : Memory} (h : m.wf) : (storeBlock v base k m).wf := by
  induction k with
  | zero => exact h
  | succ k ih => exact Memory.wf_writeByte ih _ _

/-- Outside the stored bytes a block store leaves memory alone. -/
theorem readByte_storeBlock_ne (v : RegIx → Byte) (base k : Nat) (m : Memory) (a : Nat)
    (h : ∀ j, j < k → ea (base + j) ≠ ea a) : (storeBlock v base k m).readByte a = m.readByte a := by
  induction k with
  | zero => rfl
  | succ k ih =>
    rw [storeBlock, Memory.readByte_writeByte, if_neg (h k (by omega)), ih fun j hj => h j (by omega)]

/-- Byte j of a block store of at most 4096 bytes is V[j]. -/
theorem readByte_storeBlock (v : RegIx → Byte) (base k : Nat) (m : Memory) (j : Nat) (hj : j < k) (hk : k ≤ memSize) :
    (storeBlock v base k m).readByte (base + j) = v (regNumber j) := by
  induction k with
  | zero => omega
  | succ k ih =>
    rw [storeBlock, Memory.readByte_writeByte]
    by_cases h : j = k
    · simp [h]
    · have : ¬ ea (base + k) = ea (base + j) := by simp only [ea, memSize] at *; omega
      rw [if_neg this, ih (by omega) (by omega)]

/-- Every byte after a block store of at most 4096 bytes, by its offset from the base: V[offset] inside the block, the
byte from before outside it. -/
theorem readByte_storeBlock_eq (v : RegIx → Byte) (base k : Nat) (m : Memory) (hk : k ≤ memSize) (a : Nat) :
    (storeBlock v base k m).readByte a =
      if (a + (4096 - base % 4096)) % 4096 < k then v (regNumber ((a + (4096 - base % 4096)) % 4096))
      else m.readByte a := by
  split
  · rename_i h
    have : ea a = ea (base + (a + (4096 - base % 4096)) % 4096) := by simp only [ea, memSize]; omega
    rw [← readByte_storeBlock v base k m _ h hk, Memory.readByte, this]
    rfl
  · rename_i h
    refine readByte_storeBlock_ne v base k m a fun j hj hc => h ?_
    simp only [ea, memSize] at *
    omega

end Sys2Proof.Machine
end

