-- ==== Sys2Proof/Laws/State.lean ====
section
/-! SUPPORT. One lemma per field per update of State, true by rfl, so that no proof unfolds a record update; then what a
register read and a memory read see of each update. -/

namespace Sys2Proof.Machine.State

variable (s : State)

@[simp] theorem writeV_v (x : RegIx) (b : Byte) : (s.writeV x b).v = s.v.set x b := rfl
@[simp] theorem writeV_i (x : RegIx) (b : Byte) : (s.writeV x b).i = s.i := rfl
@[simp] theorem writeV_pc (x : RegIx) (b : Byte) : (s.writeV x b).pc = s.pc := rfl
@[simp] theorem writeV_mem (x : RegIx) (b : Byte) : (s.writeV x b).mem = s.mem := rfl
@[simp] theorem writeV_fb (x : RegIx) (b : Byte) : (s.writeV x b).fb = s.fb := rfl
@[simp] theorem writeV_fault (x : RegIx) (b : Byte) : (s.writeV x b).fault = s.fault := rfl
@[simp] theorem writeV_frec (x : RegIx) (b : Byte) : (s.writeV x b).frec = s.frec := rfl
@[simp] theorem writeV_started (x : RegIx) (b : Byte) : (s.writeV x b).started = s.started := rfl
@[simp] theorem writeV_straps (x : RegIx) (b : Byte) : (s.writeV x b).straps = s.straps := rfl
@[simp] theorem writeV_loaded (x : RegIx) (b : Byte) : (s.writeV x b).loaded = s.loaded := rfl
@[simp] theorem writeV_events (x : RegIx) (b : Byte) : (s.writeV x b).events = s.events := rfl

@[simp] theorem setI_v (w : Word) : (s.setI w).v = s.v := rfl
@[simp] theorem setI_i (w : Word) : (s.setI w).i = w := rfl
@[simp] theorem setI_pc (w : Word) : (s.setI w).pc = s.pc := rfl
@[simp] theorem setI_mem (w : Word) : (s.setI w).mem = s.mem := rfl
@[simp] theorem setI_fb (w : Word) : (s.setI w).fb = s.fb := rfl
@[simp] theorem setI_fault (w : Word) : (s.setI w).fault = s.fault := rfl
@[simp] theorem setI_frec (w : Word) : (s.setI w).frec = s.frec := rfl
@[simp] theorem setI_started (w : Word) : (s.setI w).started = s.started := rfl
@[simp] theorem setI_straps (w : Word) : (s.setI w).straps = s.straps := rfl
@[simp] theorem setI_loaded (w : Word) : (s.setI w).loaded = s.loaded := rfl
@[simp] theorem setI_events (w : Word) : (s.setI w).events = s.events := rfl

@[simp] theorem setPc_v (a : Addr) : (s.setPc a).v = s.v := rfl
@[simp] theorem setPc_i (a : Addr) : (s.setPc a).i = s.i := rfl
@[simp] theorem setPc_pc (a : Addr) : (s.setPc a).pc = a := rfl
@[simp] theorem setPc_mem (a : Addr) : (s.setPc a).mem = s.mem := rfl
@[simp] theorem setPc_fb (a : Addr) : (s.setPc a).fb = s.fb := rfl
@[simp] theorem setPc_fault (a : Addr) : (s.setPc a).fault = s.fault := rfl
@[simp] theorem setPc_frec (a : Addr) : (s.setPc a).frec = s.frec := rfl
@[simp] theorem setPc_started (a : Addr) : (s.setPc a).started = s.started := rfl
@[simp] theorem setPc_straps (a : Addr) : (s.setPc a).straps = s.straps := rfl
@[simp] theorem setPc_loaded (a : Addr) : (s.setPc a).loaded = s.loaded := rfl
@[simp] theorem setPc_events (a : Addr) : (s.setPc a).events = s.events := rfl

@[simp] theorem setMem_v (m : Memory) : (s.setMem m).v = s.v := rfl
@[simp] theorem setMem_i (m : Memory) : (s.setMem m).i = s.i := rfl
@[simp] theorem setMem_pc (m : Memory) : (s.setMem m).pc = s.pc := rfl
@[simp] theorem setMem_mem (m : Memory) : (s.setMem m).mem = m := rfl
@[simp] theorem setMem_fb (m : Memory) : (s.setMem m).fb = s.fb := rfl
@[simp] theorem setMem_fault (m : Memory) : (s.setMem m).fault = s.fault := rfl
@[simp] theorem setMem_frec (m : Memory) : (s.setMem m).frec = s.frec := rfl
@[simp] theorem setMem_started (m : Memory) : (s.setMem m).started = s.started := rfl
@[simp] theorem setMem_straps (m : Memory) : (s.setMem m).straps = s.straps := rfl
@[simp] theorem setMem_loaded (m : Memory) : (s.setMem m).loaded = s.loaded := rfl
@[simp] theorem setMem_events (m : Memory) : (s.setMem m).events = s.events := rfl

@[simp] theorem setFb_v (fb : Framebuffer) : (s.setFb fb).v = s.v := rfl
@[simp] theorem setFb_i (fb : Framebuffer) : (s.setFb fb).i = s.i := rfl
@[simp] theorem setFb_pc (fb : Framebuffer) : (s.setFb fb).pc = s.pc := rfl
@[simp] theorem setFb_mem (fb : Framebuffer) : (s.setFb fb).mem = s.mem := rfl
@[simp] theorem setFb_fb (fb : Framebuffer) : (s.setFb fb).fb = fb := rfl
@[simp] theorem setFb_fault (fb : Framebuffer) : (s.setFb fb).fault = s.fault := rfl
@[simp] theorem setFb_frec (fb : Framebuffer) : (s.setFb fb).frec = s.frec := rfl
@[simp] theorem setFb_started (fb : Framebuffer) : (s.setFb fb).started = s.started := rfl
@[simp] theorem setFb_straps (fb : Framebuffer) : (s.setFb fb).straps = s.straps := rfl
@[simp] theorem setFb_loaded (fb : Framebuffer) : (s.setFb fb).loaded = s.loaded := rfl
@[simp] theorem setFb_events (fb : Framebuffer) : (s.setFb fb).events = s.events := rfl

@[simp] theorem emit_v (es : List Event) : (s.emit es).v = s.v := rfl
@[simp] theorem emit_i (es : List Event) : (s.emit es).i = s.i := rfl
@[simp] theorem emit_pc (es : List Event) : (s.emit es).pc = s.pc := rfl
@[simp] theorem emit_mem (es : List Event) : (s.emit es).mem = s.mem := rfl
@[simp] theorem emit_fb (es : List Event) : (s.emit es).fb = s.fb := rfl
@[simp] theorem emit_fault (es : List Event) : (s.emit es).fault = s.fault := rfl
@[simp] theorem emit_frec (es : List Event) : (s.emit es).frec = s.frec := rfl
@[simp] theorem emit_started (es : List Event) : (s.emit es).started = s.started := rfl
@[simp] theorem emit_straps (es : List Event) : (s.emit es).straps = s.straps := rfl
@[simp] theorem emit_loaded (es : List Event) : (s.emit es).loaded = s.loaded := rfl
@[simp] theorem emit_events (es : List Event) : (s.emit es).events = s.events ++ es := rfl

@[simp] theorem markStarted_v : (s.markStarted).v = s.v := rfl
@[simp] theorem markStarted_i : (s.markStarted).i = s.i := rfl
@[simp] theorem markStarted_pc : (s.markStarted).pc = s.pc := rfl
@[simp] theorem markStarted_mem : (s.markStarted).mem = s.mem := rfl
@[simp] theorem markStarted_fb : (s.markStarted).fb = s.fb := rfl
@[simp] theorem markStarted_fault : (s.markStarted).fault = s.fault := rfl
@[simp] theorem markStarted_frec : (s.markStarted).frec = s.frec := rfl
@[simp] theorem markStarted_started : (s.markStarted).started = true := rfl
@[simp] theorem markStarted_straps : (s.markStarted).straps = s.straps := rfl
@[simp] theorem markStarted_loaded : (s.markStarted).loaded = s.loaded := rfl
@[simp] theorem markStarted_events : (s.markStarted).events = s.events := rfl

@[simp] theorem markLoaded_v : (s.markLoaded).v = s.v := rfl
@[simp] theorem markLoaded_i : (s.markLoaded).i = s.i := rfl
@[simp] theorem markLoaded_pc : (s.markLoaded).pc = s.pc := rfl
@[simp] theorem markLoaded_mem : (s.markLoaded).mem = s.mem := rfl
@[simp] theorem markLoaded_fb : (s.markLoaded).fb = s.fb := rfl
@[simp] theorem markLoaded_fault : (s.markLoaded).fault = s.fault := rfl
@[simp] theorem markLoaded_frec : (s.markLoaded).frec = s.frec := rfl
@[simp] theorem markLoaded_started : (s.markLoaded).started = s.started := rfl
@[simp] theorem markLoaded_straps : (s.markLoaded).straps = s.straps := rfl
@[simp] theorem markLoaded_loaded : (s.markLoaded).loaded = true := rfl
@[simp] theorem markLoaded_events : (s.markLoaded).events = s.events := rfl

@[simp] theorem latch_v (fr : FaultRecord) : (s.latch fr).v = s.v := rfl
@[simp] theorem latch_i (fr : FaultRecord) : (s.latch fr).i = s.i := rfl
@[simp] theorem latch_pc (fr : FaultRecord) : (s.latch fr).pc = s.pc := rfl
@[simp] theorem latch_mem (fr : FaultRecord) : (s.latch fr).mem = s.mem := rfl
@[simp] theorem latch_fb (fr : FaultRecord) : (s.latch fr).fb = s.fb := rfl
@[simp] theorem latch_fault (fr : FaultRecord) : (s.latch fr).fault = true := rfl
@[simp] theorem latch_frec (fr : FaultRecord) : (s.latch fr).frec = fr := rfl
@[simp] theorem latch_started (fr : FaultRecord) : (s.latch fr).started = s.started := rfl
@[simp] theorem latch_straps (fr : FaultRecord) : (s.latch fr).straps = s.straps := rfl
@[simp] theorem latch_loaded (fr : FaultRecord) : (s.latch fr).loaded = s.loaded := rfl
@[simp] theorem latch_events (fr : FaultRecord) : (s.latch fr).events = s.events := rfl

@[simp] theorem writeV_memRead (x : RegIx) (b : Byte) (c : Nat) : (s.writeV x b).memRead c = s.memRead c := rfl
@[simp] theorem setI_readV (w : Word) (r : RegIx) : (s.setI w).readV r = s.readV r := rfl
@[simp] theorem setI_memRead (w : Word) (c : Nat) : (s.setI w).memRead c = s.memRead c := rfl
@[simp] theorem setPc_readV (a : Addr) (r : RegIx) : (s.setPc a).readV r = s.readV r := rfl
@[simp] theorem setPc_memRead (a : Addr) (c : Nat) : (s.setPc a).memRead c = s.memRead c := rfl
@[simp] theorem setMem_readV (m : Memory) (r : RegIx) : (s.setMem m).readV r = s.readV r := rfl
@[simp] theorem setFb_readV (fb : Framebuffer) (r : RegIx) : (s.setFb fb).readV r = s.readV r := rfl
@[simp] theorem setFb_memRead (fb : Framebuffer) (c : Nat) : (s.setFb fb).memRead c = s.memRead c := rfl
@[simp] theorem emit_readV (es : List Event) (r : RegIx) : (s.emit es).readV r = s.readV r := rfl
@[simp] theorem emit_memRead (es : List Event) (c : Nat) : (s.emit es).memRead c = s.memRead c := rfl
@[simp] theorem markStarted_readV (r : RegIx) : (s.markStarted).readV r = s.readV r := rfl
@[simp] theorem markStarted_memRead (c : Nat) : (s.markStarted).memRead c = s.memRead c := rfl
@[simp] theorem markLoaded_readV (r : RegIx) : (s.markLoaded).readV r = s.readV r := rfl
@[simp] theorem markLoaded_memRead (c : Nat) : (s.markLoaded).memRead c = s.memRead c := rfl
@[simp] theorem latch_readV (fr : FaultRecord) (r : RegIx) : (s.latch fr).readV r = s.readV r := rfl
@[simp] theorem latch_memRead (fr : FaultRecord) (c : Nat) : (s.latch fr).memRead c = s.memRead c := rfl

@[simp] theorem setMem_memRead (m : Memory) (c : Nat) : (s.setMem m).memRead c = m.readByte c := rfl

/-- A register read after a register write. -/
@[simp] theorem writeV_readV (x r : RegIx) (b : Byte) : (s.writeV x b).readV r = if r = x then b else s.readV r := by
  by_cases h : r = x
  · subst h; simp [writeV, readV]
  · simp [writeV, readV, h, Vector.getElem_set_ne, Fin.val_ne_of_ne (Ne.symm h)]

/-! The operations made of those updates. -/

@[simp] theorem seq_eq : s.seq = s.setPc (s.pc + 2) := rfl
@[simp] theorem skipIf_eq (c : Bool) : s.skipIf c = s.setPc (if c then s.pc + 2 + 2 else s.pc + 2) := rfl
@[simp] theorem jump_eq (nnn : Addr) : s.jump nnn = s.setPc nnn := rfl
@[simp] theorem memWrite_eq (a : Nat) (b : Byte) : s.memWrite a b = s.setMem (s.mem.writeByte a b) := rfl
@[simp] theorem takeFault_eq (w : Word) : s.takeFault w = s.latch (s.faultRecord w) := rfl
@[simp] theorem whileFaulted_eq : s.whileFaulted = s := rfl
@[simp] theorem writeResultThenFlag_eq (x : RegIx) (b : Byte) (c : Bool) :
    s.writeResultThenFlag x b c = (s.writeV x b).writeV vf (flagByte c) := rfl

/-- The registers after a result and its flag: the flag wins on VF (42_alu.md R140). -/
theorem writeResultThenFlag_readV (x r : RegIx) (b : Byte) (c : Bool) :
    (s.writeResultThenFlag x b c).readV r = if r = vf then flagByte c else if r = x then b else s.readV r := by
  simp

/-- Two states with equal fields, register by register, are equal. -/
theorem v_ext {v w : Vector Byte 16} (h : ∀ r : RegIx, v[r] = w[r]) : v = w :=
  Vector.ext fun k hk => h ⟨k, hk⟩

end Sys2Proof.Machine.State
end

