-- ==== Sys2Proof/Laws/Blocks.lean ====
section
/-! SUPPORT. The block load and the advance of I, said once: which registers a block load writes and with what, and that
neither touches anything else (spec 45_memory_block.md R211, R212). The block store is in Laws/Memory.lean. -/

namespace Sys2Proof.Machine

@[simp] theorem loadBlock_i (base k : Nat) (s : State) : (loadBlock base k s).i = s.i := by
  induction k with
  | zero => rfl
  | succ k ih => exact ih

@[simp] theorem loadBlock_pc (base k : Nat) (s : State) : (loadBlock base k s).pc = s.pc := by
  induction k with
  | zero => rfl
  | succ k ih => exact ih

@[simp] theorem loadBlock_mem (base k : Nat) (s : State) : (loadBlock base k s).mem = s.mem := by
  induction k with
  | zero => rfl
  | succ k ih => exact ih

@[simp] theorem loadBlock_fb (base k : Nat) (s : State) : (loadBlock base k s).fb = s.fb := by
  induction k with
  | zero => rfl
  | succ k ih => exact ih

@[simp] theorem loadBlock_events (base k : Nat) (s : State) : (loadBlock base k s).events = s.events := by
  induction k with
  | zero => rfl
  | succ k ih => exact ih

@[simp] theorem loadBlock_straps (base k : Nat) (s : State) : (loadBlock base k s).straps = s.straps := by
  induction k with
  | zero => rfl
  | succ k ih => exact ih

@[simp] theorem loadBlock_fault (base k : Nat) (s : State) : (loadBlock base k s).fault = s.fault := by
  induction k with
  | zero => rfl
  | succ k ih => exact ih

@[simp] theorem loadBlock_frec (base k : Nat) (s : State) : (loadBlock base k s).frec = s.frec := by
  induction k with
  | zero => rfl
  | succ k ih => exact ih

@[simp] theorem loadBlock_started (base k : Nat) (s : State) : (loadBlock base k s).started = s.started := by
  induction k with
  | zero => rfl
  | succ k ih => exact ih

@[simp] theorem loadBlock_loaded (base k : Nat) (s : State) : (loadBlock base k s).loaded = s.loaded := by
  induction k with
  | zero => rfl
  | succ k ih => exact ih

@[simp] theorem loadBlock_memRead (base k : Nat) (s : State) (a : Nat) :
    (loadBlock base k s).memRead a = s.memRead a := by simp [State.memRead]

/-- A block load of k registers gives V[j] the byte at base + j for j < k and leaves the others. -/
theorem loadBlock_readV (base k : Nat) (hk : k ≤ 16) (s : State) (r : RegIx) :
    (loadBlock base k s).readV r = if r.val < k then s.memRead (base + r.val) else s.readV r := by
  induction k with
  | zero => rfl
  | succ k ih =>
    have hv : (regNumber k).val = k := regNumber_val (by omega)
    rw [loadBlock, State.writeV_readV, ih (by omega), loadBlock_memRead]
    by_cases h : r = regNumber k
    · have : r.val = k := by rw [h, hv]
      simp [h, hv]
    · have : r.val ≠ k := fun e => h (Fin.ext (e.trans hv.symm))
      rw [if_neg h]
      by_cases hlt : r.val < k
      · rw [if_pos hlt, if_pos (by omega)]
      · rw [if_neg hlt, if_neg (by omega)]

/-- I after a block, by the strap. -/
theorem advanceI_i (s : State) (x : RegIx) :
    (s.advanceI x).i = match s.straps.loadStoreInc with
      | .keep => s.i
      | .inc => BitVec.ofNat 16 (s.i.toNat + x.val + 1) := by
  unfold State.advanceI
  split <;> simp_all

/-! The advance writes I alone. -/

@[simp] theorem advanceI_v (s : State) (x : RegIx) : (s.advanceI x).v = s.v := by
  unfold State.advanceI; split <;> rfl

@[simp] theorem advanceI_pc (s : State) (x : RegIx) : (s.advanceI x).pc = s.pc := by
  unfold State.advanceI; split <;> rfl

@[simp] theorem advanceI_mem (s : State) (x : RegIx) : (s.advanceI x).mem = s.mem := by
  unfold State.advanceI; split <;> rfl

@[simp] theorem advanceI_fb (s : State) (x : RegIx) : (s.advanceI x).fb = s.fb := by
  unfold State.advanceI; split <;> rfl

@[simp] theorem advanceI_fault (s : State) (x : RegIx) : (s.advanceI x).fault = s.fault := by
  unfold State.advanceI; split <;> rfl

@[simp] theorem advanceI_frec (s : State) (x : RegIx) : (s.advanceI x).frec = s.frec := by
  unfold State.advanceI; split <;> rfl

@[simp] theorem advanceI_started (s : State) (x : RegIx) : (s.advanceI x).started = s.started := by
  unfold State.advanceI; split <;> rfl

@[simp] theorem advanceI_straps (s : State) (x : RegIx) : (s.advanceI x).straps = s.straps := by
  unfold State.advanceI; split <;> rfl

@[simp] theorem advanceI_loaded (s : State) (x : RegIx) : (s.advanceI x).loaded = s.loaded := by
  unfold State.advanceI; split <;> rfl

@[simp] theorem advanceI_events (s : State) (x : RegIx) : (s.advanceI x).events = s.events := by
  unfold State.advanceI; split <;> rfl

@[simp] theorem advanceI_readV (s : State) (x r : RegIx) : (s.advanceI x).readV r = s.readV r := by
  simp [State.readV]

@[simp] theorem advanceI_memRead (s : State) (x : RegIx) (a : Nat) : (s.advanceI x).memRead a = s.memRead a := by
  simp [State.memRead]

end Sys2Proof.Machine
end

