-- ==== Sys2Proof/Laws/Config.lean ====
section
/-! SUPPORT. The parameters of the hardware as numerals, for simp and omega (spec 00_scope.md R5). -/

namespace Sys2Proof

@[simp] theorem memSize_eq : memSize = 4096 := rfl
@[simp] theorem progBase_eq : progBase = 512 := rfl
@[simp] theorem progMax_eq : progMax = 3584 := rfl
@[simp] theorem fontBase_eq : fontBase = 0 := rfl
@[simp] theorem glyphBytes_eq : glyphBytes = 5 := rfl
@[simp] theorem numGlyphs_eq : numGlyphs = 16 := rfl

end Sys2Proof
end

