-- ==== Sys2Proof/Laws/Framebuffer.lean ====
section
/-! SUPPORT. The laws of the framebuffer: what a pixel read sees of a plot, the blank grid, and the Sink's replay (spec
10_state.md R31; 44_display.md R192). -/

namespace Sys2Proof.Machine

@[simp] theorem pixel_plot (fb : Framebuffer) (px qx : Column) (py qy : PixelRow) (b : Bool) :
    (fb.plot px py b).pixel qx qy = if qx = px ∧ qy = py then b else fb.pixel qx qy := by
  by_cases hy : qy = py
  · subst hy
    by_cases hx : qx = px
    · subst hx; simp [Framebuffer.plot, Framebuffer.pixel]
    · simp [Framebuffer.plot, Framebuffer.pixel, hx, Vector.getElem_set_ne, Fin.val_ne_of_ne (Ne.symm hx)]
  · simp [Framebuffer.plot, Framebuffer.pixel, hy, Vector.getElem_set_ne, Fin.val_ne_of_ne (Ne.symm hy)]

@[simp] theorem pixel_fbBlank (px : Column) (py : PixelRow) : Framebuffer.pixel fbBlank px py = false := by
  simp [Framebuffer.pixel, fbBlank]

/-- Framebuffers with equal pixels are equal data. -/
theorem fb_ext {fb gb : Framebuffer} (h : ∀ px py, fb.pixel px py = gb.pixel px py) : fb = gb :=
  Vector.ext fun y hy => Vector.ext fun x hx => h ⟨x, hx⟩ ⟨y, hy⟩

@[simp] theorem replay_nil (g : Framebuffer) : Sink.replay g [] = g := rfl

theorem replay_append (g : Framebuffer) (es fs : List Event) :
    Sink.replay g (es ++ fs) = Sink.replay (Sink.replay g es) fs := List.foldl_append

end Sys2Proof.Machine
end

