-- ==== Sys2Proof/Laws/Draw.lean ====
section
/-! SUPPORT. The sprite draw, said once: the two loops with their early exits visit exactly the cells of visitedCells, in
that order and none twice; what a run of visits does to the pixels, to the collision flag and to the events follows
(spec 44_display.md R183 to R187). -/

namespace Sys2Proof.Machine

/-- One visited cell under the sprite bit over it. -/
def Draw.visitCell (rule : CollisionRule) (bit : Column × PixelRow → Bool) (d : Draw) (c : Column × PixelRow) : Draw :=
  d.visit rule c.1 c.2 (bit c)

/-- The sprite bit over a cell, by the cell. -/
def cellBit (byteOf : Nat → Byte) (bx byy : Nat) (c : Column × PixelRow) : Bool :=
  bitOver byteOf bx byy c.1.val c.2.val

/-- Some framebuffer cell at given numbers, when it exists. -/
def cellAt (px py : Nat) : Option (Column × PixelRow) :=
  if h : px < 64 ∧ py < 32 then some (⟨px, h.1⟩, ⟨py, h.2⟩) else none

theorem visitedCells_eq (bx byy n : Nat) :
    visitedCells bx byy n =
      (List.range n).flatMap fun r => (List.range 8).filterMap fun k => cellAt (bx + k) (byy + r) := rfl

/-- Past the right edge nothing of a row is left to visit. -/
theorem filterMap_cellAt_right (bx py : Nat) (ks : List Nat) (h : ∀ k ∈ ks, 64 ≤ bx + k) :
    (ks.filterMap fun k => cellAt (bx + k) py) = [] := by
  refine List.filterMap_eq_nil_iff.mpr fun k hk => ?_
  have := h k hk
  exact dif_neg (by omega)

/-- The bit loop visits the cells of its row that exist, in order. -/
theorem bits_eq_foldl (rule : CollisionRule) (byteOf : Nat → Byte) (bx byy r : Nat) (hr : byy + r < 32)
    (ks : List Nat) (hks : ks.Pairwise (· < ·)) (d : Draw) :
    d.bits rule bx ⟨byy + r, hr⟩ (byteOf r) ks =
      (ks.filterMap fun k => cellAt (bx + k) (byy + r)).foldl (Draw.visitCell rule (cellBit byteOf bx byy)) d := by
  induction ks generalizing d with
  | nil => rfl
  | cons k ks ih =>
    obtain ⟨hk, hks'⟩ := List.pairwise_cons.mp hks
    unfold Draw.bits
    split
    · rename_i h
      have hc : cellAt (bx + k) (byy + r) = some (⟨bx + k, h⟩, ⟨byy + r, hr⟩) := dif_pos ⟨h, hr⟩
      simp only [List.filterMap_cons, hc, List.foldl_cons, ih hks']
      simp [Draw.visitCell, cellBit, bitOver, spriteBit]
    · rename_i h
      rw [filterMap_cellAt_right]
      · rfl
      · intro j hj
        rcases List.mem_cons.mp hj with rfl | hj
        · omega
        · have := hk j hj; omega

/-- The row loop visits the cells of its rows that exist, in order. -/
theorem rows_eq_foldl (rule : CollisionRule) (byteOf : Nat → Byte) (bx byy : Nat) (rs : List Nat)
    (hrs : rs.Pairwise (· < ·)) (d : Draw) :
    d.rows rule bx byy byteOf rs =
      (rs.flatMap fun r => (List.range 8).filterMap fun k => cellAt (bx + k) (byy + r)).foldl
        (Draw.visitCell rule (cellBit byteOf bx byy)) d := by
  induction rs generalizing d with
  | nil => rfl
  | cons r rs ih =>
    obtain ⟨hr, hrs'⟩ := List.pairwise_cons.mp hrs
    unfold Draw.rows
    split
    · rename_i h
      rw [List.flatMap_cons, List.foldl_append, ← bits_eq_foldl rule byteOf bx byy r h _ List.pairwise_lt_range,
        ih hrs']
    · rename_i h
      have hnil : ((r :: rs).flatMap fun r => (List.range 8).filterMap fun k => cellAt (bx + k) (byy + r)) = [] := by
        refine List.flatMap_eq_nil_iff.mpr fun j hj => List.filterMap_eq_nil_iff.mpr fun k _ => dif_neg ?_
        rcases List.mem_cons.mp hj with rfl | hj
        · omega
        · have := hr j hj; omega
      rw [hnil, List.foldl_nil]

/-- Which cells are visited: those of the sprite's box (R186). -/
theorem mem_visitedCells (bx byy n : Nat) (c : Column × PixelRow) :
    c ∈ visitedCells bx byy n ↔ inSprite bx byy n c.1.val c.2.val = true := by
  have h1 := c.1.isLt
  have h2 := c.2.isLt
  simp only [visitedCells_eq, List.mem_flatMap, List.mem_range, List.mem_filterMap, inSprite, Bool.and_eq_true,
    decide_eq_true_eq]
  constructor
  · rintro ⟨r, hr, k, hk, hc⟩
    unfold cellAt at hc
    split at hc
    · obtain rfl := Option.some.inj hc
      simp only; omega
    · exact absurd hc (by simp)
  · rintro ⟨⟨⟨ha, hb⟩, hc⟩, hd⟩
    refine ⟨c.2.val - byy, by omega, c.1.val - bx, by omega, ?_⟩
    unfold cellAt
    rw [dif_pos (by omega)]
    refine congrArg some (Prod.ext (Fin.ext ?_) (Fin.ext ?_)) <;> simp only <;> omega

theorem cellAt_inj {px py qx qy : Nat} {c : Column × PixelRow} (h : cellAt px py = some c) (h' : cellAt qx qy = some c) :
    px = qx ∧ py = qy := by
  unfold cellAt at h h'
  split at h <;> split at h' <;> simp_all
  obtain rfl := h
  simpa using h'.symm

/-- No cell is visited twice (R187). -/
theorem nodup_visitedCells (bx byy n : Nat) : (visitedCells bx byy n).Nodup := by
  rw [visitedCells_eq, List.nodup_flatMap]
  refine ⟨fun r _ => ?_, ?_⟩
  · refine List.Nodup.filterMap (fun k j c hk hj => ?_) List.nodup_range
    have := cellAt_inj hk hj
    omega
  · refine List.Pairwise.imp ?_ (List.nodup_range (n := n))
    intro r q hrq c hc hc'
    obtain ⟨k, _, hk⟩ := List.mem_filterMap.mp hc
    obtain ⟨j, _, hj⟩ := List.mem_filterMap.mp hc'
    have := cellAt_inj hk hj
    omega

/-! A run of visits to distinct cells. -/

variable (rule : CollisionRule) (bit : Column × PixelRow → Bool)

/-- Each visited pixel is XORed with its sprite bit, every other is as before (R183, R189). -/
theorem foldl_visit_pixel (cs : List (Column × PixelRow)) (hcs : cs.Nodup) (d : Draw) (px : Column) (py : PixelRow) :
    (cs.foldl (Draw.visitCell rule bit) d).fb.pixel px py =
      (d.fb.pixel px py ^^ (decide ((px, py) ∈ cs) && bit (px, py))) := by
  induction cs generalizing d with
  | nil => simp
  | cons c cs ih =>
    obtain ⟨hc, hcs'⟩ := List.nodup_cons.mp hcs
    rw [List.foldl_cons, ih hcs']
    by_cases h : (px, py) = c
    · subst h
      simp [Draw.visitCell, Draw.visit, hc]
    · have hne : ¬ (px = c.1 ∧ py = c.2) := fun e => h (Prod.ext e.1 e.2)
      simp [Draw.visitCell, Draw.visit, h, hne]

/-- The collision flag is set when some visited cell collides, by the values before the draw (R186). -/
theorem foldl_visit_hit (cs : List (Column × PixelRow)) (hcs : cs.Nodup) (d : Draw) :
    (cs.foldl (Draw.visitCell rule bit) d).hit =
      (d.hit || cs.any fun c => collides rule (d.fb.pixel c.1 c.2) (bit c)) := by
  induction cs generalizing d with
  | nil => simp
  | cons c cs ih =>
    obtain ⟨hc, hcs'⟩ := List.nodup_cons.mp hcs
    have hrest : (cs.any fun e => collides rule ((Draw.visitCell rule bit d c).fb.pixel e.1 e.2) (bit e)) =
        cs.any fun e => collides rule (d.fb.pixel e.1 e.2) (bit e) := by
      refine Bool.eq_iff_iff.mpr ?_
      simp only [List.any_eq_true]
      refine exists_congr fun e => and_congr_right fun he => ?_
      have hne : ¬ (e.1 = c.1 ∧ e.2 = c.2) := fun h => hc (Prod.ext h.1 h.2 ▸ he)
      simp [Draw.visitCell, Draw.visit, hne]
    rw [List.foldl_cons, ih hcs', hrest]
    simp [Draw.visitCell, Draw.visit, Bool.or_assoc]

/-- The pixel events: one for each visited cell under a 1 bit, with the value after the XOR, in order (R187). -/
theorem foldl_visit_events (cs : List (Column × PixelRow)) (hcs : cs.Nodup) (d : Draw) :
    (cs.foldl (Draw.visitCell rule bit) d).events =
      d.events ++ (cs.filter bit).map fun c => Event.setPixel c.1 c.2 (!(d.fb.pixel c.1 c.2)) := by
  induction cs generalizing d with
  | nil => simp
  | cons c cs ih =>
    obtain ⟨hc, hcs'⟩ := List.nodup_cons.mp hcs
    have hrest : ((cs.filter bit).map fun e =>
          Event.setPixel e.1 e.2 (!((Draw.visitCell rule bit d c).fb.pixel e.1 e.2))) =
        (cs.filter bit).map fun e => Event.setPixel e.1 e.2 (!(d.fb.pixel e.1 e.2)) := by
      refine List.map_congr_left fun e he => ?_
      have hne : ¬ (e.1 = c.1 ∧ e.2 = c.2) := fun h => hc (Prod.ext h.1 h.2 ▸ List.mem_of_mem_filter he)
      simp [Draw.visitCell, Draw.visit, hne]
    rw [List.foldl_cons, ih hcs', hrest]
    by_cases hb : bit c <;> simp [Draw.visitCell, Draw.visit, hb]

/-- A run of visits, seen by a Sink that held the framebuffer before it (R192). -/
theorem replay_foldl_visit (cs : List (Column × PixelRow)) (d : Draw) :
    ∃ es, (cs.foldl (Draw.visitCell rule bit) d).events = d.events ++ es ∧
      Sink.replay d.fb es = (cs.foldl (Draw.visitCell rule bit) d).fb := by
  induction cs generalizing d with
  | nil => exact ⟨[], by simp⟩
  | cons c cs ih =>
    obtain ⟨es, he, hr⟩ := ih (Draw.visitCell rule bit d c)
    rw [List.foldl_cons]
    by_cases hb : bit c
    · refine ⟨.setPixel c.1 c.2 (d.fb.pixel c.1 c.2 ^^ true) :: es, ?_, ?_⟩
      · rw [he]; simp [Draw.visitCell, Draw.visit, hb]
      · rw [← hr]; simp [Sink.replay, Sink.apply, Draw.visitCell, Draw.visit, hb]
    · refine ⟨es, ?_, ?_⟩
      · rw [he]; simp [Draw.visitCell, Draw.visit, hb]
      · rw [← hr]
        refine congrArg (Sink.replay · es) (fb_ext fun px py => ?_)
        by_cases h : px = c.1 ∧ py = c.2 <;> simp [Draw.visitCell, Draw.visit, hb, h]

/-- The draw of DRW is the run of visits over its cells. -/
theorem sprite_eq_foldl (s : State) (x y : RegIx) (n : Fin 16) :
    s.sprite x y n =
      (visitedCells (s.originX x) (s.originY y) n.val).foldl
        (Draw.visitCell s.straps.collisionRule
          (cellBit (fun r => s.memRead (s.i.toNat + r)) (s.originX x) (s.originY y))) ⟨s.fb, false, []⟩ :=
  rows_eq_foldl _ _ _ _ _ List.pairwise_lt_range _

end Sys2Proof.Machine
end

