-- ==== Sys2Proof/Laws/PerInstr.lean ====
section
/-! SUPPORT. The per-instruction families of LAWS.json. EncodingFitsRow: the word an instruction is encoded to belongs to
its own row of the opcode table, mask and match (spec 30_encoding.md R84, R85). -/

namespace Sys2Proof.Laws.EncodingFitsRow

/-- The encoding of an instruction lies in its row of R85. -/
def Statement (i : Instr) : Prop := (encode i &&& (rowOf i).mask) = (rowOf i).pattern

/-- A word of format NNN under the mask F000 keeps its class. -/
theorem mask_packNNN (c : Nibble) (nnn : Addr) : (packNNN c nnn &&& 0xF000#16) = packNNN c 0#12 := by
  refine BitVec.eq_of_getLsbD_eq fun k hk => ?_
  simp only [packNNN, BitVec.getLsbD_and, BitVec.getLsbD_append]
  interval_cases k <;> simp

/-- A word of format XNN under the masks F000 and F0FF. -/
theorem mask_packXNN (c x : Nibble) (nn : Byte) :
    (packXNN c x nn &&& 0xF000#16) = packXNN c 0#4 0#8 ∧ (packXNN c x nn &&& 0xF0FF#16) = packXNN c 0#4 nn := by
  constructor <;> refine BitVec.eq_of_getLsbD_eq fun k hk => ?_ <;>
    simp only [packXNN, BitVec.getLsbD_and, BitVec.getLsbD_append] <;> interval_cases k <;> simp

/-- A word of format XYN under the masks F000, F00F and F0F0. -/
theorem mask_packXYN (c x y n : Nibble) :
    (packXYN c x y n &&& 0xF000#16) = packXYN c 0#4 0#4 0#4 ∧ (packXYN c x y n &&& 0xF00F#16) = packXYN c 0#4 0#4 n ∧
    (packXYN c x y n &&& 0xF0F0#16) = packXYN c 0#4 y 0#4 := by
  refine ⟨?_, ?_, ?_⟩ <;> refine BitVec.eq_of_getLsbD_eq fun k hk => ?_ <;>
    simp only [packXYN, BitVec.getLsbD_and, BitVec.getLsbD_append] <;> interval_cases k <;> simp

theorem cls : Statement .cls := rfl
theorem jp (nnn : Addr) : Statement (.jp nnn) := (mask_packNNN _ _).trans rfl
theorem seImm (x : RegIx) (nn : Byte) : Statement (.seImm x nn) := (mask_packXNN _ _ _).1.trans rfl
theorem sneImm (x : RegIx) (nn : Byte) : Statement (.sneImm x nn) := (mask_packXNN _ _ _).1.trans rfl
theorem seReg (x y : RegIx) : Statement (.seReg x y) := (mask_packXYN _ _ _ _).1.trans rfl
theorem ldImm (x : RegIx) (nn : Byte) : Statement (.ldImm x nn) := (mask_packXNN _ _ _).1.trans rfl
theorem addImm (x : RegIx) (nn : Byte) : Statement (.addImm x nn) := (mask_packXNN _ _ _).1.trans rfl
theorem orReg (x y : RegIx) : Statement (.orReg x y) := (mask_packXYN _ _ _ _).2.1.trans rfl
theorem andReg (x y : RegIx) : Statement (.andReg x y) := (mask_packXYN _ _ _ _).2.1.trans rfl
theorem xorReg (x y : RegIx) : Statement (.xorReg x y) := (mask_packXYN _ _ _ _).2.1.trans rfl
theorem addReg (x y : RegIx) : Statement (.addReg x y) := (mask_packXYN _ _ _ _).2.1.trans rfl
theorem subReg (x y : RegIx) : Statement (.subReg x y) := (mask_packXYN _ _ _ _).2.1.trans rfl
theorem shr (x y : RegIx) : Statement (.shr x y) := (mask_packXYN _ _ _ _).2.1.trans rfl
theorem subnReg (x y : RegIx) : Statement (.subnReg x y) := (mask_packXYN _ _ _ _).2.1.trans rfl
theorem shl (x y : RegIx) : Statement (.shl x y) := (mask_packXYN _ _ _ _).2.1.trans rfl
theorem ldI (nnn : Addr) : Statement (.ldI nnn) := (mask_packNNN _ _).trans rfl
theorem drw (x y : RegIx) (n : Fin 16) : Statement (.drw x y n) := (mask_packXYN _ _ _ _).1.trans rfl
theorem addI (x : RegIx) : Statement (.addI x) := (mask_packXNN _ _ _).2.trans rfl
theorem ldF (x : RegIx) : Statement (.ldF x) := (mask_packXNN _ _ _).2.trans rfl
theorem ldB (x : RegIx) : Statement (.ldB x) := (mask_packXNN _ _ _).2.trans rfl
theorem stBlock (x : RegIx) : Statement (.stBlock x) := (mask_packXNN _ _ _).2.trans rfl
theorem ldBlock (x : RegIx) : Statement (.ldBlock x) := (mask_packXNN _ _ _).2.trans rfl

end Sys2Proof.Laws.EncodingFitsRow
end

