-- ==== Sys2Proof/Laws/Step.lean ====
section
/-! SUPPORT. What a step can do, said once, and what a program load can do (spec 40_control_flow.md R110;
70_reset_and_hazards.md R263, R264). -/

namespace Sys2Proof.Machine

/-- The three ways a step answers a next state: the latch is set and nothing happens; the word decodes and its
instruction runs; the word does not decode and the fault is taken. -/
theorem step_cases {s t : State} (h : step s = .next t) :
    (s.fault = true ∧ t = s) ∨
    (s.fault = false ∧ ∃ i, decodeWord s.fetchWord = .ok i ∧ exec i s.markStarted = .next t) ∨
    (s.fault = false ∧ ∃ u, decodeWord s.fetchWord = .error u ∧ t = s.markStarted.takeFault s.fetchWord) := by
  unfold step at h
  split at h
  · rename_i hf
    exact .inl ⟨hf, by simpa using h.symm⟩
  · rename_i hf
    have hf : s.fault = false := by simpa using hf
    split at h
    · rename_i i hi
      exact .inr (.inl ⟨hf, i, hi, h⟩)
    · rename_i u hu
      exact .inr (.inr ⟨hf, u, hu, by cases h; rfl⟩)

/-- A load that succeeds found a clean machine and a fitting image, and placed it. -/
theorem load_cases {s t : State} {image : List Byte} (h : s.load image = .next t) :
    s.started = false ∧ s.loaded = false ∧ image.length ≤ progMax ∧
      t = (s.setMem (s.mem.writeBytes progBase image)).markLoaded := by
  unfold State.load at h
  split at h
  · cases h
  · split at h
    · cases h
    · split at h
      · rename_i h1 h2 h3
        cases h
        exact ⟨by simpa using h1, by simpa using h2, by simpa [imageWellFormed] using h3, rfl⟩
      · cases h

end Sys2Proof.Machine
end

