-- ==== Sys2Proof/Laws/Words.lean ====
section
/-! SUPPORT. Words and their fields: slicing a packed word gives its parts back, and the two conversions between a
register number and its field are inverse (spec 30_encoding.md R81, R82). -/

namespace Sys2Proof

@[simp] theorem regOf_nibbleOf (r : Fin 16) : regOf (nibbleOf r) = r := by
  ext; simp [regOf, nibbleOf]

@[simp] theorem nibbleOf_regOf (f : Nibble) : nibbleOf (regOf f) = f := by
  apply BitVec.eq_of_toNat_eq; simp [regOf, nibbleOf]

/-- Concatenation as a sum. -/
theorem append_toNat {n m : Nat} (a : BitVec n) (b : BitVec m) : (a ++ b).toNat = a.toNat * 2 ^ m + b.toNat := by
  rw [BitVec.toNat_append, ← Nat.shiftLeft_add_eq_or_of_lt b.isLt, Nat.shiftLeft_eq]

theorem wordOfBytes_toNat (hi lo : Byte) : (wordOfBytes hi lo).toNat = 256 * hi.toNat + lo.toNat := by
  have := append_toNat hi lo
  simp only [wordOfBytes]
  omega

/-- A word is its two bytes, the high one first. -/
@[simp] theorem wordOfBytes_hiByte_loByte (w : Word) : wordOfBytes (hiByte w) (loByte w) = w := by
  apply BitVec.eq_of_toNat_eq
  rw [wordOfBytes_toNat]
  simp only [hiByte, loByte, BitVec.extractLsb'_toNat, Nat.shiftRight_eq_div_pow]
  have := w.isLt
  omega

/-- The fields of a word as numbers: R82's shifts and masks as quotients and remainders. -/
theorem fields_toNat (w : Word) :
    (fields w).cls.toNat = w.toNat / 4096 ∧ (fields w).x.toNat = w.toNat / 256 % 16 ∧
    (fields w).y.toNat = w.toNat / 16 % 16 ∧ (fields w).n.toNat = w.toNat % 16 ∧
    (fields w).nn.toNat = w.toNat % 256 ∧ (fields w).nnn.toNat = w.toNat % 4096 := by
  have := w.isLt
  simp only [fields, BitVec.extractLsb'_toNat, Nat.shiftRight_eq_div_pow, Nat.pow_zero, Nat.div_one]
  refine ⟨?_, ?_, ?_, ?_, ?_, ?_⟩ <;> first | trivial | omega

theorem packNNN_toNat (c : Nibble) (nnn : Addr) : (packNNN c nnn).toNat = 4096 * c.toNat + nnn.toNat := by
  have := append_toNat c nnn
  simp only [packNNN]
  omega

theorem packXNN_toNat (c x : Nibble) (nn : Byte) :
    (packXNN c x nn).toNat = 4096 * c.toNat + 256 * x.toNat + nn.toNat := by
  have h := append_toNat (c ++ x) nn
  have := append_toNat c x
  simp only [packXNN]
  omega

theorem packXYN_toNat (c x y n : Nibble) :
    (packXYN c x y n).toNat = 4096 * c.toNat + 256 * x.toNat + 16 * y.toNat + n.toNat := by
  have h := append_toNat (c ++ x ++ y) n
  have := append_toNat (c ++ x) y
  have := append_toNat c x
  simp only [packXYN]
  omega

/-- The fields of a word of format NNN. -/
theorem fields_packNNN (c : Nibble) (nnn : Addr) : (fields (packNNN c nnn)).cls = c ∧ (fields (packNNN c nnn)).nnn = nnn := by
  have hw := fields_toNat (packNNN c nnn)
  have := c.isLt; have := nnn.isLt
  rw [packNNN_toNat] at hw
  exact ⟨BitVec.eq_of_toNat_eq (by omega), BitVec.eq_of_toNat_eq (by omega)⟩

/-- The fields of a word of format XNN or X. -/
theorem fields_packXNN (c x : Nibble) (nn : Byte) :
    (fields (packXNN c x nn)).cls = c ∧ (fields (packXNN c x nn)).x = x ∧ (fields (packXNN c x nn)).nn = nn := by
  have hw := fields_toNat (packXNN c x nn)
  have := c.isLt; have := x.isLt; have := nn.isLt
  rw [packXNN_toNat] at hw
  exact ⟨BitVec.eq_of_toNat_eq (by omega), BitVec.eq_of_toNat_eq (by omega), BitVec.eq_of_toNat_eq (by omega)⟩

/-- The fields of a word of format XYN, XY or Z. -/
theorem fields_packXYN (c x y n : Nibble) :
    (fields (packXYN c x y n)).cls = c ∧ (fields (packXYN c x y n)).x = x ∧ (fields (packXYN c x y n)).y = y ∧
    (fields (packXYN c x y n)).n = n := by
  have hw := fields_toNat (packXYN c x y n)
  have := c.isLt; have := x.isLt; have := y.isLt; have := n.isLt
  rw [packXYN_toNat] at hw
  exact ⟨BitVec.eq_of_toNat_eq (by omega), BitVec.eq_of_toNat_eq (by omega), BitVec.eq_of_toNat_eq (by omega),
    BitVec.eq_of_toNat_eq (by omega)⟩

end Sys2Proof
end

