-- ==== Sys2Proof/Machine/Assembler.lean ====
section
/-! DEFINITION. The assembler notation of the spec on lines already split into a mnemonic and plain numbers (spec
30_encoding.md R92, R93; log 21): one instruction a line, labels for addresses, DB and DW; the encoder's
one word for each instruction; no pseudo-instruction. The machine itself runs words and does not use this file. -/

namespace Sys2Proof.Machine

/-- The instruction a mnemonic of R85 makes of plain numbers; none for a number out of its range (R92) or a mnemonic
that does not exist (R93). -/
def instrOfRaw (mnemonic : String) (o : RawOperands) : Option Instr :=
  match mnemonic with
  | "CLS" => some .cls
  | "JP nnn" => do return .jp (← checkImm12 o.nnn)
  | "SE Vx, nn" => do return .seImm (← checkReg o.x) (← checkImm8 o.nn)
  | "SNE Vx, nn" => do return .sneImm (← checkReg o.x) (← checkImm8 o.nn)
  | "SE Vx, Vy" => do return .seReg (← checkReg o.x) (← checkReg o.y)
  | "LD Vx, nn" => do return .ldImm (← checkReg o.x) (← checkImm8 o.nn)
  | "ADD Vx, nn" => do return .addImm (← checkReg o.x) (← checkImm8 o.nn)
  | "OR Vx, Vy" => do return .orReg (← checkReg o.x) (← checkReg o.y)
  | "AND Vx, Vy" => do return .andReg (← checkReg o.x) (← checkReg o.y)
  | "XOR Vx, Vy" => do return .xorReg (← checkReg o.x) (← checkReg o.y)
  | "ADD Vx, Vy" => do return .addReg (← checkReg o.x) (← checkReg o.y)
  | "SUB Vx, Vy" => do return .subReg (← checkReg o.x) (← checkReg o.y)
  | "SHR Vx, Vy" => do return .shr (← checkReg o.x) (← checkReg o.y)
  | "SUBN Vx, Vy" => do return .subnReg (← checkReg o.x) (← checkReg o.y)
  | "SHL Vx, Vy" => do return .shl (← checkReg o.x) (← checkReg o.y)
  | "LD I, nnn" => do return .ldI (← checkImm12 o.nnn)
  | "DRW Vx, Vy, n" => do return .drw (← checkReg o.x) (← checkReg o.y) (← checkRows o.n)
  | "ADD I, Vx" => do return .addI (← checkReg o.x)
  | "LD F, Vx" => do return .ldF (← checkReg o.x)
  | "LD B, Vx" => do return .ldB (← checkReg o.x)
  | "LD [I], Vx" => do return .stBlock (← checkReg o.x)
  | "LD Vx, [I]" => do return .ldBlock (← checkReg o.x)
  | _ => none

/-- One line of a program (R92). -/
inductive Line where
  /-- A name for the address of the next line that places bytes (log 21 for a data line). -/
  | label (name : String)
  /-- An instruction with its operands. -/
  | op (mnemonic : String) (operands : RawOperands)
  /-- An instruction whose nnn is a label: JP or LD I. -/
  | opLabel (mnemonic : String) (target : String)
  /-- DB b: one byte. -/
  | db (b : Nat)
  /-- DW w: one word, high byte first. -/
  | dw (w : Nat)
deriving DecidableEq, Repr

/-- How many bytes a line places: no line is more than one word (R93). -/
def Line.size : Line → Nat
  | .label _ => 0
  | .op _ _ => 2
  | .opLabel _ _ => 2
  | .db _ => 1
  | .dw _ => 2

/-- The address a label stands for, the first line being at the given address (R92). R92 says 'the address of the next
instruction' and leaves open a label before a DB or DW line: here it stands for the address of that data line, a label
defined twice for its first definition, and one at the end for the address after the last byte. DESIGN CHOICE, log 21. -/
def labelAddress (name : String) : List Line → Nat → Option Nat
  | [], _ => none
  | l :: ls, at' => if l = .label name then some at' else labelAddress name ls (at' + l.size)

/-- The bytes of one line of a program. -/
def Line.bytes (program : List Line) : Line → Option (List Byte)
  | .label _ => some []
  | .op mnemonic o => (instrOfRaw mnemonic o).map encodeBytes
  | .opLabel mnemonic target =>
    (labelAddress target program progBase).bind fun a => (instrOfRaw mnemonic { nnn := a }).map encodeBytes
  | .db b => (checkImm8 b).map fun v => [v]
  | .dw w => if w < 65536 then some (wordBytes (BitVec.ofNat 16 w)) else none

/-- The bytes of some lines of a program, in order. -/
def linesBytes (program : List Line) : List Line → Option (List Byte)
  | [] => some []
  | l :: ls => (l.bytes program).bind fun bs => (linesBytes program ls).map fun rest => bs ++ rest

/-- The image of a program: raw bytes from PROG_BASE (R92; 70_reset_and_hazards.md R263). -/
def assemble (program : List Line) : Option (List Byte) := linesBytes program program

/-- A register as the notation writes it, `V0` to `VF` (R92). -/
def regText (x : RegIx) : String := "V" ++ ((String.singleton (Nat.digitChar x.val)).map Char.toUpper)

/-- An instruction in the notation of R92, numbers in decimal. -/
def instrText : Instr → String
  | .cls => "CLS"
  | .jp nnn => "JP " ++ toString nnn.toNat
  | .seImm x nn => "SE " ++ regText x ++ ", " ++ toString nn.toNat
  | .sneImm x nn => "SNE " ++ regText x ++ ", " ++ toString nn.toNat
  | .seReg x y => "SE " ++ regText x ++ ", " ++ regText y
  | .ldImm x nn => "LD " ++ regText x ++ ", " ++ toString nn.toNat
  | .addImm x nn => "ADD " ++ regText x ++ ", " ++ toString nn.toNat
  | .orReg x y => "OR " ++ regText x ++ ", " ++ regText y
  | .andReg x y => "AND " ++ regText x ++ ", " ++ regText y
  | .xorReg x y => "XOR " ++ regText x ++ ", " ++ regText y
  | .addReg x y => "ADD " ++ regText x ++ ", " ++ regText y
  | .subReg x y => "SUB " ++ regText x ++ ", " ++ regText y
  | .shr x y => "SHR " ++ regText x ++ ", " ++ regText y
  | .subnReg x y => "SUBN " ++ regText x ++ ", " ++ regText y
  | .shl x y => "SHL " ++ regText x ++ ", " ++ regText y
  | .ldI nnn => "LD I, " ++ toString nnn.toNat
  | .drw x y n => "DRW " ++ regText x ++ ", " ++ regText y ++ ", " ++ toString n.val
  | .addI x => "ADD I, " ++ regText x
  | .ldF x => "LD F, " ++ regText x
  | .ldB x => "LD B, " ++ regText x
  | .stBlock x => "LD [I], " ++ regText x
  | .ldBlock x => "LD " ++ regText x ++ ", [I]"

end Sys2Proof.Machine
end

