-- ==== Sys2Proof/Tests/Slice0.lean ====
section
/-! SUPPORT. The model's own tests: each expected result is a worked example or a vector of spec 95_test_vectors.md (its id
stands in the theorem's comment) or a word written out from the encoding of 30_encoding.md R85; then the ill-formed terms
the checks of WellFormed.lean refuse; then a witness for the hypotheses of every statement that has some. -/

namespace Sys2Proof.Tests

open Sys2Proof.Machine

/-! Small states. -/

/-- The reset state with some registers, I and some bytes of memory set. -/
def mk (vs : List (RegIx × Byte)) (i : Word := 0) (bytes : List (Nat × Byte) := []) : State :=
  bytes.foldl (fun s c => s.memWrite c.1 c.2) (vs.foldl (fun s c => s.writeV c.1 c.2) (State.reset.setI i))

/-- The same state under other straps. -/
def strapped (st : Straps) (s : State) : State := { s with straps := st }

/-- The state after one step on a word placed at pc; the state itself if the step does not answer next. -/
def after (s : State) (w : Nat) : State :=
  match step (s.withFetchWord 16 w) with
  | .next t => t
  | _ => s

/-- The state an outcome holds, if it is a next state. -/
def nextOf : Host.Outcome State Fault Refusal → Option State
  | .next t => some t
  | _ => none

/-! Decoding: every constructor by a word of its pattern in R85. -/

theorem test_decode_cls : decodeWord 0b0000_0000_1110_0000 = .ok .cls := by rfl
theorem test_decode_cls_ignored_nibbles : decodeWord 0b0000_1111_1110_1111 = .ok .cls := by rfl
theorem test_decode_jp : decodeWord 0b0001_1010_1011_1100 = .ok (.jp 0xABC) := by rfl
theorem test_decode_seImm : decodeWord 0b0011_0011_0010_1010 = .ok (.seImm 3 0x2A) := by rfl
theorem test_decode_sneImm : decodeWord 0b0100_0011_0010_1010 = .ok (.sneImm 3 0x2A) := by rfl
theorem test_decode_seReg : decodeWord 0b0101_1010_1011_0111 = .ok (.seReg 10 11) := by rfl
theorem test_decode_ldImm : decodeWord 0b0110_0000_0000_0101 = .ok (.ldImm 0 0x05) := by rfl
theorem test_decode_addImm : decodeWord 0b0111_0010_0000_0101 = .ok (.addImm 2 0x05) := by rfl
theorem test_decode_orReg : decodeWord 0b1000_0001_0010_0001 = .ok (.orReg 1 2) := by rfl
theorem test_decode_andReg : decodeWord 0b1000_0001_0010_0010 = .ok (.andReg 1 2) := by rfl
theorem test_decode_xorReg : decodeWord 0b1000_0001_0010_0011 = .ok (.xorReg 1 2) := by rfl
theorem test_decode_addReg : decodeWord 0b1000_0001_0010_0100 = .ok (.addReg 1 2) := by rfl
theorem test_decode_subReg : decodeWord 0b1000_0001_0010_0101 = .ok (.subReg 1 2) := by rfl
theorem test_decode_shr : decodeWord 0b1000_0001_0010_0110 = .ok (.shr 1 2) := by rfl
theorem test_decode_subnReg : decodeWord 0b1000_0001_0010_0111 = .ok (.subnReg 1 2) := by rfl
theorem test_decode_shl : decodeWord 0b1000_0001_0010_1110 = .ok (.shl 1 2) := by rfl
theorem test_decode_ldI : decodeWord 0b1010_0001_0010_0011 = .ok (.ldI 0x123) := by rfl
theorem test_decode_drw : decodeWord 0b1101_0001_0010_1111 = .ok (.drw 1 2 15) := by rfl
theorem test_decode_addI : decodeWord 0b1111_0010_0001_1110 = .ok (.addI 2) := by rfl
theorem test_decode_ldF : decodeWord 0b1111_1010_0010_1001 = .ok (.ldF 10) := by rfl
theorem test_decode_ldB : decodeWord 0b1111_0011_0011_0011 = .ok (.ldB 3) := by rfl
theorem test_decode_stBlock : decodeWord 0b1111_0001_0101_0101 = .ok (.stBlock 1) := by rfl
theorem test_decode_ldBlock : decodeWord 0b1111_0010_0110_0101 = .ok (.ldBlock 2) := by rfl

/-- V-DEC-14 to V-DEC-43: words of every unimplemented family. -/
theorem test_decode_rejects : [0x00D0, 0x00F0, 0x0000, 0x2200, 0x8120, 0x8128, 0x812D, 0x812F, 0x9120, 0xB200, 0xC0FF,
    0xE19E, 0xF007, 0xF00A, 0xF11F, 0xFFFF].all (fun w => (decodeTableWord 16 w).isNone) = true := by decide

/-- R80, R90: bytes decode to an instruction and the rest, and a rejection has a name. -/
theorem test_decode_bytes : decode [0x61, 0x2A, 0x00] = .ok (.ldImm 1 0x2A, [0x00]) ∧
    decode [0x00] = .error .truncated ∧ decode [0x9A, 0xB0] = .error (.unimplemented .class9) := ⟨rfl, rfl, rfl⟩

/-! The checks of WellFormed.lean refuse ill-formed terms. -/

theorem test_wf_register : checkReg 15 = some 15 ∧ checkReg 16 = none := by decide
theorem test_wf_rows : checkRows 15 = some 15 ∧ checkRows 16 = none := by decide
theorem test_wf_imm8 : checkImm8 255 = some 0xFF ∧ checkImm8 256 = none := by decide
theorem test_wf_imm12 : checkImm12 4095 = some 0xFFF ∧ checkImm12 4096 = none := by decide
theorem test_wf_operands : ({ x := 15, nn := 255 : RawOperands }).wellFormed = true ∧
    ({ x := 16 : RawOperands }).wellFormed = false ∧ ({ nnn := 4096 : RawOperands }).wellFormed = false := by decide
theorem test_wf_canonical : (Instr.shr 3 0).canonical .vx = true ∧ (Instr.shr 3 4).canonical .vx = false ∧
    (Instr.shr 3 4).canonical .vy = true ∧ (Instr.shl 3 4).canonical .vx = false := by decide
theorem test_wf_image : imageWellFormed (List.replicate 3584 0) = true ∧
    imageWellFormed (List.replicate 3585 0) = false := by decide +kernel

/-! Control flow. -/

/-- V-CF-1, V-CF-2. -/
theorem test_jp : (after (mk []) 0x1ABC).pc = 0xABC ∧ (after (mk []) 0x1201).pc = 0x201 := by decide
/-- V-CF-5, V-CF-6. -/
theorem test_seImm : (after (mk [(3, 0x2A)]) 0x332A).pc = 0x204 ∧ (after (mk [(3, 0x2B)]) 0x332A).pc = 0x202 := by decide
/-- V-CF-7, V-CF-8. -/
theorem test_sneImm : (after (mk [(3, 0x2A)]) 0x432A).pc = 0x202 ∧ (after (mk [(3, 0x2B)]) 0x432A).pc = 0x204 := by
  decide
/-- V-CF-10, V-CF-11. -/
theorem test_seReg : (after (mk [(1, 7), (2, 7)]) 0x512F).pc = 0x204 ∧
    (after (mk [(1, 7), (2, 8)]) 0x5120).pc = 0x202 := by decide
/-- V-CF-13 to V-CF-15: pc wraps. -/
theorem test_pc_wraps : (after ((mk []).setPc 0xFFC) 0x3000).pc = 0x000 ∧ (after ((mk []).setPc 0xFFE) 0x3000).pc = 0x002 ∧
    (after ((mk []).setPc 0xFFE) 0x6000).pc = 0x000 := by decide
/-- V-CF-19: a fetch at 0xFFF takes its low byte from 0x000. -/
theorem test_fetch_wraps : (after ((mk []).setPc 0xFFF) 0x6134).readV 1 = 0x34 ∧
    (after ((mk []).setPc 0xFFF) 0x6134).pc = 0x001 ∧ (after ((mk []).setPc 0xFFF) 0x6134).memRead 0x000 = 0x34 := by decide

/-! Register-immediate. -/

/-- V-IMM-2. -/
theorem test_ldImm : (after (mk []) 0x6FAB).readV vf = 0xAB := by decide
/-- V-IMM-3, V-IMM-6. -/
theorem test_addImm : (after (mk [(2, 0xFE), (15, 0x01)]) 0x7205).readV 2 = 0x03 ∧
    (after (mk [(2, 0xFE), (15, 0x01)]) 0x7205).readV vf = 0x01 ∧ (after (mk [(15, 0xFF)]) 0x7F02).readV vf = 0x01 := by
  decide

/-! ALU: rows of V-ALU, "V[1] after, VF after" for word 812n. -/

def alu (a b : Byte) (w : Nat) : Byte × Byte :=
  ((after (mk [(1, a), (2, b), (15, 0xAA)]) w).readV 1, (after (mk [(1, a), (2, b), (15, 0xAA)]) w).readV vf)

/-- The same under SHIFT_SRC = VY. -/
def aluVy (a b : Byte) (w : Nat) : Byte × Byte :=
  ((after (strapped ⟨.vy, .eraseOnly, .keep⟩ (mk [(1, a), (2, b)])) w).readV 1,
    (after (strapped ⟨.vy, .eraseOnly, .keep⟩ (mk [(1, a), (2, b)])) w).readV vf)

/-- V-ALU-2. -/
theorem test_orReg : alu 0xF0 0x3C 0x8121 = (0xFC, 0xAA) := by decide
/-- V-ALU-2. -/
theorem test_andReg : alu 0xF0 0x3C 0x8122 = (0x30, 0xAA) := by decide
/-- V-ALU-2. -/
theorem test_xorReg : alu 0xF0 0x3C 0x8123 = (0xCC, 0xAA) := by decide
/-- S4, V-ALU-6: 255 is no overflow. -/
theorem test_addReg : alu 0xFF 0x01 0x8124 = (0x00, 1) ∧ alu 0x01 0x01 0x8124 = (0x02, 0) ∧
    alu 0xFF 0x00 0x8124 = (0xFF, 0) := by decide
/-- S5, V-ALU-17: equal operands give flag 0. -/
theorem test_subReg : alu 0x05 0x03 0x8125 = (0x02, 1) ∧ alu 0x03 0x05 0x8125 = (0xFE, 0) ∧
    alu 0x10 0x10 0x8125 = (0x00, 0) := by decide
/-- V-ALU-9, V-ALU-8, V-ALU-17. -/
theorem test_subnReg : alu 0x03 0x05 0x8127 = (0x02, 1) ∧ alu 0x05 0x03 0x8127 = (0xFE, 0) ∧
    alu 0x10 0x10 0x8127 = (0x00, 0) := by decide
/-- V-ALU-20, V-ALU-21, both straps. -/
theorem test_shr : alu 0x05 0x03 0x8126 = (0x02, 1) ∧ alu 0xF0 0x0F 0x8126 = (0x78, 0) ∧
    aluVy 0xF0 0x0F 0x8126 = (0x07, 1) := by decide
/-- V-ALU-22, V-ALU-23, both straps. -/
theorem test_shl : alu 0x81 0x7E 0x812E = (0x02, 1) ∧ alu 0x01 0xFE 0x812E = (0x02, 0) ∧
    aluVy 0x01 0xFE 0x812E = (0xFC, 1) := by decide
/-- V-ALU-33 cases A and B: with x = 15 the flag remains, with y = 15 the old VF is added. -/
theorem test_addReg_aliases_vf : (after (mk [(15, 0x93), (2, 0x81)]) 0x8F24).readV vf = 0x01 ∧
    (after (mk [(1, 0x93), (15, 0x81)]) 0x81F4).readV 1 = 0x14 := by decide

/-! Index register. -/

/-- V-IDX-1, V-IDX-2. -/
theorem test_ldI : (after (mk [] 0xFFFF) 0xA000).i = 0x0000 ∧ (after (mk []) 0xAFFF).i = 0x0FFF := by decide
/-- V-IDX-5, V-IDX-7. -/
theorem test_addI : (after (mk [(2, 0x01), (15, 0x09)] 0xFFFF) 0xF21E).i = 0x0000 ∧
    (after (mk [(2, 0x01), (15, 0x09)] 0xFFFF) 0xF21E).readV vf = 0x09 ∧
    (after (mk [(2, 0xFF)] 0x0FFF) 0xF21E).i = 0x10FE := by decide
/-- V-IDX-9, V-IDX-13. -/
theorem test_ldF : (after (mk [(10, 0x07)]) 0xFA29).i = 0x0023 ∧ (after (mk [(0, 0xFF)]) 0xF029).i = 0x04FB := by decide

/-! Memory. -/

/-- S8, V-MEM-9: the addresses wrap one by one. -/
theorem test_ldB : [0x300, 0x301, 0x302].map (after (mk [(3, 0x9C)] 0x300) 0xF333).memRead = [1, 5, 6] ∧
    [0xFFF, 0x000, 0x001, 0x002].map (after (mk [(3, 0xFF)] 0x0FFF) 0xF333).memRead = [2, 5, 5, 0x90] := by decide
/-- V-MEM-11, V-MEM-12. -/
theorem test_stBlock :
    [0x207, 0x208, 0x209, 0x20A].map (after (mk [(0, 0x62), (1, 0x77), (2, 0x99)] 0x208) 0xF155).memRead =
      [0x00, 0x62, 0x77, 0x00] ∧
    (after (mk [] 0x208) 0xF155).i = 0x208 ∧ (after (strapped ⟨.vx, .eraseOnly, .inc⟩ (mk [] 0x208)) 0xF155).i = 0x20A := by
  decide
/-- V-MEM-15, V-MEM-16. -/
theorem test_ldBlock :
    [0, 1, 2, 3].map (after (mk [] 0x300 [(0x300, 1), (0x301, 5), (0x302, 6), (0x303, 7)]) 0xF265).readV = [1, 5, 6, 0] ∧
    (after (strapped ⟨.vx, .eraseOnly, .inc⟩ (mk [] 0x300)) 0xF265).i = 0x303 := by decide
/-- V-MEM-17 (FONT): the first sixteen font bytes. -/
theorem test_font : (List.finRange 16).map (after (mk []) 0xFF65).readV =
    [0xF0, 0x90, 0x90, 0x90, 0xF0, 0x20, 0x60, 0x20, 0x20, 0x70, 0xF0, 0x10, 0xF0, 0x80, 0xF0, 0xF0] := by decide
/-- R53: writing what an unlisted address reads as lists nothing. -/
theorem test_memory_canonical : ((mk []).memWrite 0x300 0x00).mem = [] ∧ ((mk []).memWrite 0x000 0xF0).mem = [] ∧
    (((mk []).memWrite 0x300 0x07).memWrite 0x300 0x00).mem = [] := by decide

/-! Display. -/

/-- A framebuffer with some pixels lit. -/
def lit (ps : List (Column × PixelRow)) (s : State) : State :=
  s.setFb (ps.foldl (fun fb p => fb.plot p.1 p.2 true) fbBlank)

/-- V-DSP-15, V-DSP-16. -/
theorem test_cls : (after (lit [(5, 5), (63, 31)] (mk [(15, 9)])) 0x00E0).fb = fbBlank ∧
    (after (lit [(5, 5)] (mk [(15, 9)])) 0x00EE).events = [.clear] ∧
    (after (lit [(5, 5)] (mk [(15, 9)])) 0x00EE).readV vf = 9 := by decide +kernel
/-- S9 step 3 (FONT): the glyph at (5, 5). -/
theorem test_drw_glyph : (after (mk [(0, 5)]) 0xD005).events =
    [.setPixel 5 5 true, .setPixel 6 5 true, .setPixel 7 5 true, .setPixel 8 5 true, .setPixel 5 6 true,
      .setPixel 8 6 true, .setPixel 5 7 true, .setPixel 8 7 true, .setPixel 5 8 true, .setPixel 8 8 true,
      .setPixel 5 9 true, .setPixel 6 9 true, .setPixel 7 9 true, .setPixel 8 9 true, .present] := by decide +kernel
/-- V-DSP-4, V-DSP-20: clipped at the right, stopped at the bottom. -/
theorem test_drw_clips :
    (after (mk [(1, 0x3F), (2, 3)] 0x300 [(0x300, 0xFF), (0x301, 0xFF)]) 0xD122).events =
      [.setPixel 63 3 true, .setPixel 63 4 true, .present] ∧
    (after (mk [(1, 0xFF), (2, 0xFF)] 0x300 [(0x300, 0xFF), (0x301, 0xFF)]) 0xD122).events =
      [.setPixel 63 31 true, .present] := by decide +kernel
/-- V-DSP-6, V-DSP-7, V-DSP-8: the collision rules. -/
theorem test_drw_collision :
    (after (lit [(0, 0)] (mk [] 0x300 [(0x300, 0xC0)])) 0xD121).readV vf = 1 ∧
    (after (lit [(2, 0)] (mk [] 0x300 [(0x300, 0xC0)])) 0xD121).readV vf = 0 ∧
    (after (strapped ⟨.vx, .anyPreset, .keep⟩ (lit [(2, 0)] (mk [] 0x300 [(0x300, 0xC0)]))) 0xD121).readV vf = 1 := by
  decide +kernel
/-- V-DSP-10, V-DSP-14: n = 0 clears VF and presents; VF as a coordinate is read first. -/
theorem test_drw_vf : (after (mk [(15, 7)] 0x300) 0xD120).readV vf = 0 ∧ (after (mk [(15, 7)] 0x300) 0xD120).events = [.present] ∧
    (after (mk [(15, 5), (1, 2)] 0x300 [(0x300, 0x80)]) 0xDF11).events = [.setPixel 5 2 true, .present] := by
  decide +kernel

/-! The fault, the driver, the loader. -/

/-- V-FLT-2: the record, and pc as it was. -/
theorem test_fault : (after (mk [(1, 0x11), (2, 0x22)]) 0x8120).fault = true ∧
    (after (mk [(1, 0x11), (2, 0x22)]) 0x8120).frec =
      ⟨.unimplementedInstruction, 0x200, 0x8120, 0x8, 0x1, 0x2, 0x0, 0x20, 0x120⟩ ∧
    (after (mk [(1, 0x11), (2, 0x22)]) 0x8120).pc = 0x200 ∧ (after (mk [(1, 0x11), (2, 0x22)]) 0x8120).readV 1 = 0x11 := by
  decide
/-- V-FLT-1, V-FLT-5: the first step of an empty machine faults, and reset clears it. -/
theorem test_fault_then_reset : ((nextOf (step .reset)).map State.surfacedFault) =
      some (some (.unimplementedInstruction ⟨.unimplementedInstruction, 0x200, 0, 0, 0, 0, 0, 0, 0⟩)) ∧
    ((nextOf (step .reset)).bind fun t => (nextOf (t.serve (.reset strapsDefault fontDefault))).map State.fault) =
      some false := by decide +kernel
/-- R261: resetting with the default straps and FONT is State.reset; memory then lists nothing. -/
theorem test_reset_mem : (State.resetWith strapsDefault fontDefault).mem = [] := by decide +kernel
/-- R92, P1, P5: an assembled program is the image the spec lists. -/
theorem test_assemble :
    assemble [.op "LD Vx, nn" { x := 0, nn := 3 }, .op "LD Vx, nn" { x := 1 }, .label "loop",
        .op "ADD Vx, nn" { x := 1, nn := 5 }, .op "ADD Vx, nn" { x := 0, nn := 0xFF }, .op "SE Vx, nn" { x := 0 },
        .opLabel "JP nnn" "loop", .label "done", .opLabel "JP nnn" "done"] =
      some [0x60, 0x03, 0x61, 0x00, 0x71, 0x05, 0x70, 0xFF, 0x30, 0x00, 0x12, 0x04, 0x12, 0x0C] ∧
    assemble [.op "SHR Vx, Vy" { x := 0, y := 1 }, .db 7, .dw 0x8200] = some [0x80, 0x16, 7, 0x82, 0x00] ∧
    assemble [.op "LD Vx, nn" { x := 16 }] = none := by decide +kernel
/-- R92: the notation of an instruction. -/
theorem test_text : instrText (.drw 0 10 5) = "DRW V0, VA, 5" ∧ instrText (.ldBlock 2) = "LD V2, [I]" := by
  decide +kernel

/-! Witnesses: for every statement with hypotheses, a state and operands that meet all of them. -/

/-- EncodingTheDecodedWordKeepsAllOperands, each case of its match. -/
theorem test_witness_canonical : decodeWord 0x0FEF = .ok .cls ∧ decodeWord 0x512F = .ok (.seReg 1 2) ∧
    decodeWord 0xD12F = .ok (.drw 1 2 15) := ⟨rfl, rfl, rfl⟩

/-- LoaderPlacesTheImage: the longest image on the reset machine. -/
theorem test_witness_load : State.reset.started = false ∧ State.reset.loaded = false ∧
    (List.replicate 3584 (0 : Byte)).length ≤ 3584 := by decide +kernel

/-- LoaderPlacesTheImage, its two address clauses at their edges for a two-byte image. -/
theorem test_witness_load_edges : ea 0x1FF < 0x200 ∧ 0x200 + [(1 : Byte), 2].length ≤ ea 0x202 ∧
    (nextOf (State.reset.load [1, 2])).map (fun t => [0x1FF, 0x200, 0x201, 0x202].map t.memRead) =
      some [0, 1, 2, 0] := by decide

/-- LoaderRefusesWhatItMust: each of its three clauses. -/
theorem test_witness_refusals : State.reset.markStarted.started = true ∧
    (State.reset.markLoaded.started = false ∧ State.reset.markLoaded.loaded = true) ∧
    3584 < (List.replicate 3585 (0 : Byte)).length := by decide +kernel

/-- StepRunsTheDecodedInstruction. -/
theorem test_witness_step : (mk [] 0 [(0x200, 0x6F), (0x201, 0xAB)]).fault = false ∧
    decode ((mk [] 0 [(0x200, 0x6F), (0x201, 0xAB)]).memRead 0x200 ::
      (mk [] 0 [(0x200, 0x6F), (0x201, 0xAB)]).memRead 0x201 :: []) = .ok (.ldImm 15 0xAB, []) := ⟨rfl, rfl⟩

/-- PlacedWordIsTheNextToRun. -/
theorem test_witness_placed : State.reset.fault = false ∧ decodeWord 0x8124 = .ok (.addReg 1 2) := ⟨rfl, rfl⟩

/-- UnimplementedWordTakesTheFault: the reset machine fetches 0x0000. -/
theorem test_witness_fault : State.reset.fault = false ∧ decodeWord State.reset.fetchWord = .error .class0 := ⟨rfl, rfl⟩

/-- LatchedFaultStopsTheMachine, and the second clause of StepKeepsStrapsAndSetsStarted. -/
theorem test_witness_latched : (after (mk []) 0x0000).fault = true ∧
    nextOf (step (after (mk []) 0x0000)) = some (after (mk []) 0x0000) := by decide +kernel

/-- The first clause of StepKeepsStrapsAndSetsStarted. -/
theorem test_witness_started : (mk []).fault = false ∧ (nextOf (step (mk []))).map State.started = some true := by decide

/-- ParkedMachineStaysParked. -/
theorem test_witness_parked : Parked 0x200 ((mk []).withFetchWord 16 0x1200).markStarted ∧
    ((mk []).withFetchWord 16 0x1200).markStarted.started = true := ⟨⟨rfl, rfl, rfl⟩, rfl⟩

/-- A state to run every instruction in. -/
def anyState : State := mk [(0, 0x21), (1, 0x10), (2, 0x05), (15, 0x07)] 0x300 [(0x300, 0xC3), (0x301, 0x81)]

/-- PcFollowsTheNextPcTable, EventsCountDrawsAndClears, OnlyListedRegistersAreWritten,
OnlyTheNamedInstructionsWriteEachPart: an instruction of each family that answers next, and what it does. -/
theorem test_witness_exec :
    (nextOf (exec (.jp 0xABC) anyState)).map State.pc = some 0xABC ∧
    (nextOf (exec (.seReg 1 1) anyState)).map State.pc = some 0x204 ∧
    (nextOf (exec .cls anyState)).map State.events = some [.clear] ∧
    (nextOf (exec (.drw 1 2 1) anyState)).map (fun t => t.events.count .present) = some 1 ∧
    (nextOf (exec (.addReg 0 1) anyState)).map (fun t => (t.readV 0, t.readV 1)) = some (0x31, 0x10) ∧
    (nextOf (exec (.ldB 0) anyState)).map (fun t => (t.i, t.memRead 0x301)) = some (0x300, 0x03) ∧
    (nextOf (exec (.ldBlock 1) anyState)).map (fun t => (t.i, t.readV 0, t.readV 2)) = some (0x300, 0xC3, 0x05) := by
  decide +kernel

/-- OnlyTheNamedInstructionsWriteEachPart, the strap condition of its first clause: at INC a block moves I. -/
theorem test_witness_inc : anyState.straps.loadStoreInc = .keep ∧
    (nextOf (exec (.stBlock 15) (strapped ⟨.vx, .eraseOnly, .inc⟩ anyState))).map State.i = some 0x310 := by decide

/-- DrawingTwiceRestoresThePicture: two draws, the first of which lights a pixel, under ERASE_ONLY. -/
theorem test_witness_twice : (1 : RegIx) ≠ vf ∧ (2 : RegIx) ≠ vf ∧ anyState.straps.collisionRule = .eraseOnly ∧
    anyState.fb.pixel 16 5 = false ∧ (nextOf (exec (.drw 1 2 2) anyState)).map (fun t => t.fb.pixel 16 5) = some true ∧
    ((nextOf (exec (.drw 1 2 2) anyState)).bind fun t => (nextOf (exec (.drw 1 2 2) t)).map fun u => u.readV vf) =
      some 1 := by decide +kernel

/-- StepKeepsTheSinkInAgreement: a machine that has drawn, and its next step. -/
theorem test_witness_sink : Sink.replay fbBlank (after anyState 0xD122).events = (after anyState 0xD122).fb ∧
    (nextOf (step (after anyState 0xD122))).isSome = true := by decide +kernel

/-- StoredWordIsFetchedNext (the first from P4 step 4): LD [I] over both bytes of the next instruction, over its second
byte alone, LD B over both, and a jump that stores nothing. -/
theorem test_witness_stored :
    (nextOf (exec (.stBlock 1) (mk [(0, 0x62), (1, 0x77)] 0x202))).map State.fetchWord = some 0x6277 ∧
    (nextOf (exec (.stBlock 0) (mk [(0, 0x77)] 0x203 [(0x202, 0x62)]))).map State.fetchWord = some 0x6277 ∧
    (nextOf (exec (.ldB 0) (mk [(0, 0x9C)] 0x202))).map State.fetchWord = some 0x0105 ∧
    (nextOf (exec (.jp 0x300) (mk [] 0 [(0x300, 0x62), (0x301, 0x77)]))).map State.fetchWord = some 0x6277 := by
  decide

/-- EveryAccessReducesItsAddress: I = 0x1005 (R51), and an address equal to a written one mod 4096 and one that is not. -/
theorem test_witness_address : (mk [(0, 0x77)] 0x1005).i = 0x1005 ∧ 0x2005 % 4096 = 0x1005 % 4096 ∧
    0x2006 % 4096 ≠ 0x1005 % 4096 ∧ (after (mk [(0, 0x77)] 0x1005) 0xF055).memRead 0x005 = 0x77 := by decide

/-- ExecutingStepAnswersOkWithItsEvents: a CLS after earlier events answers its own event only. -/
theorem test_witness_answer : anyState.fault = false ∧ decodeWord ((anyState.withFetchWord 16 0x00E0).fetchWord) = .ok .cls ∧
    ((anyState.emit [.present]).withFetchWord 16 0x00E0).stepAnswer = some (.ok, [.clear]) := by decide

/-- LoadKeepsTheInvariants: a machine that meets all three, and a load it takes. -/
theorem test_witness_load_invariants : State.reset.mem.wf ∧ SinkAgrees .reset ∧ FaultRecordFits .reset ∧
    (nextOf (State.reset.load [0x6F, 0xAB])).isSome = true := ⟨by decide, rfl, nofun, by decide⟩

/-- R88 (c), CanonicalFormRunsAlikeUnderTheStrap: y becomes 0 under VX and stays under VY. -/
theorem test_canonical_form : encode ((Instr.shr 0 1).toCanonical .vx) = 0x8006 ∧
    encode ((Instr.shr 0 1).toCanonical .vy) = 0x8016 ∧ encode ((Instr.addReg 0 1).toCanonical .vx) = 0x8014 := by decide

/-- StepKeepsMemoryCanonical: a memory with listed cells, in the canonical form, and its next step. -/
theorem test_witness_canonical_memory : anyState.mem.wf ∧ anyState.mem.length = 2 ∧ (nextOf (step anyState)).isSome = true := by
  decide +kernel

/-- ResultsDependOnListedReadsOnly: two states that differ in a register the instruction does not read, in FAULT, in STARTED
and in the event log. -/
theorem test_witness_reads : (∀ r ∈ readsV .vx (.addReg 0 1), anyState.readV r = (anyState.writeV 2 9).readV r) ∧
    ((nextOf (exec (.addReg 0 1) anyState)).map fun t => (t.readV 0, t.pc)) =
      ((nextOf (exec (.addReg 0 1) (((anyState.writeV 2 9).latch frecReset).markStarted.emit [.present]))).map
        fun t => (t.readV 0, t.pc)) := by decide +kernel

/-- StepKeepsTheFaultRecordFitting: a machine that has just faulted. -/
theorem test_witness_record : FaultRecordFits (after (mk []) 0x8120) ∧ (after (mk []) 0x8120).fault = true :=
  ⟨fun _ => ⟨rfl, by decide +kernel, .inr (.inr (.inl ⟨by decide +kernel, .inl (by decide +kernel)⟩))⟩, by decide +kernel⟩

/-- ReachableStatesMeetTheInvariants: reset, load, one step. -/
theorem test_witness_reachable : ∃ t u, State.reset.load [0x6F, 0xAB] = .next t ∧ step t = .next u ∧
    (Reachable (.resetWith strapsDefault fontDefault)) ∧ u.readV vf = 0xAB :=
  ⟨_, _, rfl, rfl, .reset _ _, by decide⟩

/-- ResetGivesTheStartState: its address clauses at their edges. -/
theorem test_witness_reset_edges : State.reset.memRead 79 = 0x80 ∧ State.reset.memRead 80 = 0 ∧
    State.reset.memRead 4095 = 0 := by decide

/-- The clauses of the ALU statements at x = 15 and x other than 15. -/
theorem test_witness_vf_clauses : (after (mk [(15, 0x93), (2, 0x81)]) 0x8F25).readV vf = 0x01 ∧
    alu 0x93 0x81 0x8125 = (0x12, 0x01) := by decide

/-- BlockStoreWritesV0ToVx, BcdStoresThreeDigits: an address outside the stored bytes and the last one inside. -/
theorem test_witness_outside : (∀ k : RegIx, k ≤ 1 → ea 0x302 ≠ ea (0x300 + k.val)) ∧ (1 : RegIx) ≤ 1 ∧
    ea 0x303 ≠ ea 0x300 ∧ ea 0x303 ≠ ea (0x300 + 1) ∧ ea 0x303 ≠ ea (0x300 + 2) := by decide

end Sys2Proof.Tests
end

/-! SUPPORT. Proofs of the statements about the decoder (spec 30_encoding.md R82 to R86): its slices as numbers, and its
agreement with the table of masks and matches. -/

namespace Sys2Proof

/-! R82: the decoder's slices as shifts and masks. -/

/-- Settles O1: masking with 2^k - 1 is the remainder by 2^k, which is how a bit slice is read as a number. -/
theorem decoderSlicesEveryWord : Obligations.DecoderSlicesEveryWord := by
  intro w
  have mask4 (a : Nat) : a &&& 0xF = a % 16 := Nat.and_two_pow_sub_one_eq_mod a 4
  have mask8 (a : Nat) : a &&& 0x00FF = a % 256 := Nat.and_two_pow_sub_one_eq_mod a 8
  have mask12 (a : Nat) : a &&& 0x0FFF = a % 4096 := Nat.and_two_pow_sub_one_eq_mod a 12
  simp only [mask4, mask8, mask12, fields, BitVec.extractLsb'_toNat, Nat.shiftRight_zero, Nat.reducePow, and_self]

/-! R84, R85: the rows of the table, tested on the fields of a word. -/

/-- A word is its class, x, y and n side by side. -/
@[simp] theorem packXYN_fields (w : Word) : packXYN (fields w).cls (fields w).x (fields w).y (fields w).n = w := by
  refine BitVec.eq_of_toNat_eq ?_
  have hw := fields_toNat w
  rw [packXYN_toNat]
  omega

/-- A word is its class, x and nn side by side. -/
@[simp] theorem packXNN_fields (w : Word) : packXNN (fields w).cls (fields w).x (fields w).nn = w := by
  refine BitVec.eq_of_toNat_eq ?_
  have hw := fields_toNat w
  rw [packXNN_toNat]
  omega

/-- Words of format XYN are equal exactly when their four nibbles are. -/
theorem packXYN_inj {c x y n c' x' y' n' : Nibble} :
    packXYN c x y n = packXYN c' x' y' n' ↔ c = c' ∧ x = x' ∧ y = y' ∧ n = n' := by
  refine ⟨fun h => ?_, by rintro ⟨rfl, rfl, rfl, rfl⟩; rfl⟩
  have hf := fields_packXYN c x y n
  have hf' := fields_packXYN c' x' y' n'
  rw [h] at hf
  grind

/-- Words of format XNN are equal exactly when their three parts are. -/
theorem packXNN_inj {c x c' x' : Nibble} {nn nn' : Byte} :
    packXNN c x nn = packXNN c' x' nn' ↔ c = c' ∧ x = x' ∧ nn = nn' := by
  refine ⟨fun h => ?_, by rintro ⟨rfl, rfl, rfl⟩; rfl⟩
  have hf := fields_packXNN c x nn
  have hf' := fields_packXNN c' x' nn'
  rw [h] at hf
  grind

/-- The mask F000 tests the class. -/
theorem mask_F000_eq_iff (w : Word) (c : Nibble) :
    (w &&& 0xF000#16) = packXYN c 0#4 0#4 0#4 ↔ (fields w).cls.toNat = c.toNat := by
  rw [← packXYN_fields w, (Laws.EncodingFitsRow.mask_packXYN ..).1, packXYN_inj, packXYN_fields, BitVec.toNat_inj]
  simp

/-- The mask F00F tests the class and n. -/
theorem mask_F00F_eq_iff (w : Word) (c n : Nibble) :
    (w &&& 0xF00F#16) = packXYN c 0#4 0#4 n ↔ (fields w).cls.toNat = c.toNat ∧ (fields w).n.toNat = n.toNat := by
  rw [← packXYN_fields w, (Laws.EncodingFitsRow.mask_packXYN ..).2.1, packXYN_inj, packXYN_fields, BitVec.toNat_inj,
    BitVec.toNat_inj]
  simp

/-- The mask F0F0 tests the class and y. -/
theorem mask_F0F0_eq_iff (w : Word) (c y : Nibble) :
    (w &&& 0xF0F0#16) = packXYN c 0#4 y 0#4 ↔ (fields w).cls.toNat = c.toNat ∧ (fields w).y.toNat = y.toNat := by
  rw [← packXYN_fields w, (Laws.EncodingFitsRow.mask_packXYN ..).2.2, packXYN_inj, packXYN_fields, BitVec.toNat_inj,
    BitVec.toNat_inj]
  simp

/-- The mask F0FF tests the class and nn. -/
theorem mask_F0FF_eq_iff (w : Word) (c : Nibble) (nn : Byte) :
    (w &&& 0xF0FF#16) = packXNN c 0#4 nn ↔ (fields w).cls.toNat = c.toNat ∧ (fields w).nn.toNat = nn.toNat := by
  rw [← packXNN_fields w, (Laws.EncodingFitsRow.mask_packXNN ..).2, packXNN_inj, packXNN_fields, BitVec.toNat_inj,
    BitVec.toNat_inj]
  simp

/-- What the row of an instruction tests, on the fields: the class, and its discriminant where the class has one (R86).
`matches_rowOf_iff` ties it to the row's mask and match. -/
def Fields.inRow (f : Fields) : Instr → Prop
  | .cls       => f.cls.toNat = 0x0 ∧ f.y.toNat = 0xE
  | .jp _      => f.cls.toNat = 0x1
  | .seImm ..  => f.cls.toNat = 0x3
  | .sneImm .. => f.cls.toNat = 0x4
  | .seReg ..  => f.cls.toNat = 0x5
  | .ldImm ..  => f.cls.toNat = 0x6
  | .addImm .. => f.cls.toNat = 0x7
  | .orReg ..  => f.cls.toNat = 0x8 ∧ f.n.toNat = 0x1
  | .andReg .. => f.cls.toNat = 0x8 ∧ f.n.toNat = 0x2
  | .xorReg .. => f.cls.toNat = 0x8 ∧ f.n.toNat = 0x3
  | .addReg .. => f.cls.toNat = 0x8 ∧ f.n.toNat = 0x4
  | .subReg .. => f.cls.toNat = 0x8 ∧ f.n.toNat = 0x5
  | .shr ..    => f.cls.toNat = 0x8 ∧ f.n.toNat = 0x6
  | .subnReg .. => f.cls.toNat = 0x8 ∧ f.n.toNat = 0x7
  | .shl ..    => f.cls.toNat = 0x8 ∧ f.n.toNat = 0xE
  | .ldI _     => f.cls.toNat = 0xA
  | .drw ..    => f.cls.toNat = 0xD
  | .addI _    => f.cls.toNat = 0xF ∧ f.nn.toNat = 0x1E
  | .ldF _     => f.cls.toNat = 0xF ∧ f.nn.toNat = 0x29
  | .ldB _     => f.cls.toNat = 0xF ∧ f.nn.toNat = 0x33
  | .stBlock _ => f.cls.toNat = 0xF ∧ f.nn.toNat = 0x55
  | .ldBlock _ => f.cls.toNat = 0xF ∧ f.nn.toNat = 0x65

theorem OpcodeRow.matches_iff (r : OpcodeRow) (w : Word) : r.matches w = true ↔ (w &&& r.mask) = r.pattern :=
  beq_iff_eq

/-- A word lies in the row of an instruction exactly when its fields pass the row's test. -/
theorem matches_rowOf_iff (w : Word) (i : Instr) : (rowOf i).matches w = true ↔ (fields w).inRow i := by
  rw [OpcodeRow.matches_iff]
  cases i with
  | cls => exact mask_F0F0_eq_iff w 0x0#4 0xE#4
  | jp => exact mask_F000_eq_iff w 0x1#4
  | seImm => exact mask_F000_eq_iff w 0x3#4
  | sneImm => exact mask_F000_eq_iff w 0x4#4
  | seReg => exact mask_F000_eq_iff w 0x5#4
  | ldImm => exact mask_F000_eq_iff w 0x6#4
  | addImm => exact mask_F000_eq_iff w 0x7#4
  | orReg => exact mask_F00F_eq_iff w 0x8#4 0x1#4
  | andReg => exact mask_F00F_eq_iff w 0x8#4 0x2#4
  | xorReg => exact mask_F00F_eq_iff w 0x8#4 0x3#4
  | addReg => exact mask_F00F_eq_iff w 0x8#4 0x4#4
  | subReg => exact mask_F00F_eq_iff w 0x8#4 0x5#4
  | shr => exact mask_F00F_eq_iff w 0x8#4 0x6#4
  | subnReg => exact mask_F00F_eq_iff w 0x8#4 0x7#4
  | shl => exact mask_F00F_eq_iff w 0x8#4 0xE#4
  | ldI => exact mask_F000_eq_iff w 0xA#4
  | drw => exact mask_F000_eq_iff w 0xD#4
  | addI => exact mask_F0FF_eq_iff w 0xF#4 0x1E#8
  | ldF => exact mask_F0FF_eq_iff w 0xF#4 0x29#8
  | ldB => exact mask_F0FF_eq_iff w 0xF#4 0x33#8
  | stBlock => exact mask_F0FF_eq_iff w 0xF#4 0x55#8
  | ldBlock => exact mask_F0FF_eq_iff w 0xF#4 0x65#8

/-! R86: the decoder by class answers the table's instruction. -/

theorem decodeClass0_ok {f : Fields} {i : Instr} (hc : f.cls.toNat = 0x0) (h : decodeClass0 f = .ok i) :
    i ∈ instrsOfFields f ∧ f.inRow i := by
  unfold decodeClass0 at h
  split at h <;> cases h
  simp [instrsOfFields, Fields.inRow, *]

theorem decodeClass8_ok {f : Fields} {i : Instr} (hc : f.cls.toNat = 0x8) (h : decodeClass8 f = .ok i) :
    i ∈ instrsOfFields f ∧ f.inRow i := by
  unfold decodeClass8 at h
  split at h <;> cases h <;> simp [instrsOfFields, Fields.inRow, *]

theorem decodeClassF_ok {f : Fields} {i : Instr} (hc : f.cls.toNat = 0xF) (h : decodeClassF f = .ok i) :
    i ∈ instrsOfFields f ∧ f.inRow i := by
  unfold decodeClassF at h
  split at h <;> cases h <;> simp [instrsOfFields, Fields.inRow, *]

/-- What decoding answers is what a row makes of the fields, and the fields pass that row's test. -/
theorem decodeFields_ok {f : Fields} {i : Instr} (h : decodeFields f = .ok i) : i ∈ instrsOfFields f ∧ f.inRow i := by
  unfold decodeFields at h
  split at h
  case h_1 hc => exact decodeClass0_ok hc h
  case h_9 hc => exact decodeClass8_ok hc h
  case h_16 =>
    have hc : f.cls.toNat = 0xF := by have := f.cls.isLt; grind
    exact decodeClassF_ok hc h
  all_goals cases h <;> simp [instrsOfFields, Fields.inRow, *]

/-- Decoding answers what a row makes of the fields when the fields pass that row's test. -/
theorem decodeFields_of_inRow {f : Fields} {i : Instr} (hi : i ∈ instrsOfFields f) (hr : f.inRow i) :
    decodeFields f = .ok i := by
  cases i with
  | cls =>
    obtain ⟨hc, hy⟩ := hr
    simp [decodeFields, decodeClass0, hc, BitVec.eq_of_toNat_eq (y := 0xE#4) hy]
  | jp | seImm | sneImm | seReg | ldImm | addImm | ldI | drw =>
    have hc : f.cls.toNat = _ := hr
    simpa [decodeFields, hc, eq_comm, instrsOfFields] using hi
  | orReg | andReg | xorReg | addReg | subReg | shr | subnReg | shl =>
    obtain ⟨hc, hn⟩ := hr
    simpa [decodeFields, decodeClass8, hc, hn, eq_comm, instrsOfFields] using hi
  | addI | ldF | ldB | stBlock | ldBlock =>
    obtain ⟨hc, hnn⟩ := hr
    simpa [decodeFields, decodeClassF, hc, hnn, eq_comm, instrsOfFields] using hi

/-- Settles O3: a row's mask and match test the class and the discriminant, by which the opcode map selects. -/
theorem decodingSelectsTheOneMatchingRow : Obligations.DecodingSelectsTheOneMatchingRow := by
  intro w i
  rw [matches_rowOf_iff]
  exact ⟨decodeFields_ok, fun ⟨hi, hr⟩ => decodeFields_of_inRow hi hr⟩

end Sys2Proof

/-! SUPPORT. Proofs of the statements about control flow (spec 40_control_flow.md R111 to R113): which words are the
jump and the immediate skips, and what their one write of pc leaves unchanged. -/

namespace Sys2Proof

/-! R85: the words of the three instructions. -/

theorem decodeWord_jp (nnn : Addr) : decodeWord (packNNN 0x1#4 nnn) = .ok (.jp nnn) := by
  obtain ⟨hcls, hnnn⟩ := fields_packNNN 0x1#4 nnn
  simp [decodeWord, decodeFields, hcls, hnnn]

theorem decodeWord_seImm (x : Nibble) (nn : Byte) :
    decodeWord (packXNN 0x3#4 x nn) = .ok (.seImm (regOf x) nn) := by
  obtain ⟨hcls, hx, hnn⟩ := fields_packXNN 0x3#4 x nn
  simp [decodeWord, decodeFields, hcls, hx, hnn]

theorem decodeWord_sneImm (x : Nibble) (nn : Byte) :
    decodeWord (packXNN 0x4#4 x nn) = .ok (.sneImm (regOf x) nn) := by
  obtain ⟨hcls, hx, hnn⟩ := fields_packXNN 0x4#4 x nn
  simp [decodeWord, decodeFields, hcls, hx, hnn]

end Sys2Proof

namespace Sys2Proof.Machine

/-! R110: the one write of a jump or a skip. -/

theorem exec_jp (nnn : Addr) (s : State) : exec (.jp nnn) s = .next (s.jump nnn) := rfl

theorem exec_seImm (x : RegIx) (nn : Byte) (s : State) :
    exec (.seImm x nn) s = .next (s.skipIf (s.readV x == nn)) := rfl

theorem exec_sneImm (x : RegIx) (nn : Byte) (s : State) :
    exec (.sneImm x nn) s = .next (s.skipIf (s.readV x != nn)) := rfl

/-- A write of pc is the whole change. -/
theorem onlyPc_setPc (s : State) (a : Addr) : OnlyPc s (s.setPc a) := by
  simp [OnlyPc, KeepsV, KeepsMem, KeepsDisplay, KeepsFb, KeepsEvents, KeepsControl]

theorem onlyPc_jump (s : State) (nnn : Addr) : OnlyPc s (s.jump nnn) := onlyPc_setPc s nnn

theorem onlyPc_skipIf (s : State) (c : Bool) : OnlyPc s (s.skipIf c) := onlyPc_setPc s _

/-- SKIP's next pc as a number: one word on, or two when the condition holds, mod 4096. -/
theorem skipIf_pc_toNat (s : State) (c : Bool) :
    (s.skipIf c).pc.toNat = if c then (s.pc.toNat + 4) % 4096 else (s.pc.toNat + 2) % 4096 := by
  cases c with
  | false => simp [BitVec.toNat_add]
  | true => simp [BitVec.toNat_add, Nat.add_assoc]

/-- Settles O19: a jump is one write of pc, and that write is nnn itself. -/
theorem jumpSetsPcExactly : Obligations.JumpSetsPcExactly :=
  ⟨decodeWord_jp, fun nnn s => ⟨s.jump nnn, exec_jp nnn s, State.setPc_pc s nnn, onlyPc_jump s nnn⟩⟩

/-- Settles O20: both skips are SKIP, under a comparison and under its negation. -/
theorem immediateSkipsFollowTheComparison : Obligations.ImmediateSkipsFollowTheComparison := by
  refine ⟨fun x nn => ⟨decodeWord_seImm x nn, decodeWord_sneImm x nn⟩, fun x nn s => ⟨?_, ?_⟩⟩
  · refine ⟨_, exec_seImm x nn s, onlyPc_skipIf s _, ?_⟩
    simp only [skipIf_pc_toNat, beq_iff_eq]
  · refine ⟨_, exec_sneImm x nn s, onlyPc_skipIf s _, ?_⟩
    simp only [skipIf_pc_toNat, bne_iff_ne, ite_not]

end Sys2Proof.Machine

/-! SUPPORT. Proofs of the statements about the immediate instructions (spec 41_immediate.md R130, R131): which words they
are, and what one register write followed by SEQ leaves unchanged. -/

namespace Sys2Proof

/-! R85: the words of the two instructions. -/

theorem decodeWord_ldImm (x : Nibble) (nn : Byte) :
    decodeWord (packXNN 0x6#4 x nn) = .ok (.ldImm (regOf x) nn) := by
  obtain ⟨hcls, hx, hnn⟩ := fields_packXNN 0x6#4 x nn
  simp [decodeWord, decodeFields, hcls, hx, hnn]

theorem decodeWord_addImm (x : Nibble) (nn : Byte) :
    decodeWord (packXNN 0x7#4 x nn) = .ok (.addImm (regOf x) nn) := by
  obtain ⟨hcls, hx, hnn⟩ := fields_packXNN 0x7#4 x nn
  simp [decodeWord, decodeFields, hcls, hx, hnn]

end Sys2Proof

namespace Sys2Proof.Machine

/-! One register write, then SEQ. -/

theorem exec_ldImm (x : RegIx) (nn : Byte) (s : State) : exec (.ldImm x nn) s = .next (s.writeV x nn).seq := rfl

theorem exec_addImm (x : RegIx) (nn : Byte) (s : State) :
    exec (.addImm x nn) s = .next (s.writeV x (s.readV x + nn)).seq := rfl

/-- SEQ's next pc as a number: one word on, mod 4096 (R110). -/
theorem seq_pc_toNat (s : State) : s.seq.pc.toNat = (s.pc.toNat + 2) % 4096 := by
  simp [BitVec.toNat_add]

/-- The written register holds what was written. -/
theorem writeV_seq_readV_same (s : State) (x : RegIx) (b : Byte) : (s.writeV x b).seq.readV x = b := by
  simp

/-- A register write keeps every other register. -/
theorem keepsV_writeV (s : State) (x : RegIx) (b : Byte) : KeepsV [x] s (s.writeV x b) := by
  intro r hr
  rw [State.writeV_readV, if_neg (List.ne_of_not_mem_cons hr)]

/-- The register and pc are the whole change. -/
theorem onlyV_writeV_seq (s : State) (x : RegIx) (b : Byte) : OnlyV [x] s (s.writeV x b).seq := by
  refine ⟨seq_pc_toNat (s.writeV x b), keepsV_writeV s x b, ?_⟩
  simp [KeepsMem, KeepsDisplay, KeepsFb, KeepsEvents, KeepsControl]

/-- Settles O23: LD Vx, nn is one write of nn to V[x], then SEQ. -/
theorem loadImmediateWritesTheRegister : Obligations.LoadImmediateWritesTheRegister :=
  ⟨decodeWord_ldImm, fun x nn s => ⟨_, exec_ldImm x nn s, writeV_seq_readV_same s x nn, onlyV_writeV_seq s x nn⟩⟩

/-- Settles O24: the one write holds the sum of two bytes, which as a number is the sum mod 256, and no flag is written. -/
theorem addImmediateWrapsWithoutFlag : Obligations.AddImmediateWrapsWithoutFlag := by
  refine ⟨decodeWord_addImm, fun x nn s => ⟨_, exec_addImm x nn s, ?_, onlyV_writeV_seq s x (s.readV x + nn)⟩⟩
  rw [writeV_seq_readV_same, BitVec.toNat_add]

end Sys2Proof.Machine

/-! SUPPORT. Proofs of the statements about the register-register ALU (spec 42_alu.md R140 to R145, R147): which words of
class 0x8 the instructions are, and what a result and its flag, written in that order, leave unchanged. -/

namespace Sys2Proof

/-! R85, R86: the words of class 0x8. -/

/-- A word of class 0x8 goes to that class's own selection, with the three nibbles after the class as x, y and n. -/
theorem decodeWord_class8 (x y n : Nibble) :
    decodeWord (packXYN 0x8#4 x y n) = decodeClass8 { fields (packXYN 0x8#4 x y n) with x := x, y := y, n := n } := by
  obtain ⟨hcls, hx, hy, hn⟩ := fields_packXYN 0x8#4 x y n
  simp only [decodeWord, decodeFields, decodeClass8, hcls, hx, hy, hn, BitVec.reduceToNat]

theorem decodeWord_orReg (x y : Nibble) : decodeWord (packXYN 0x8#4 x y 0x1#4) = .ok (.orReg (regOf x) (regOf y)) :=
  decodeWord_class8 x y 0x1#4

theorem decodeWord_andReg (x y : Nibble) : decodeWord (packXYN 0x8#4 x y 0x2#4) = .ok (.andReg (regOf x) (regOf y)) :=
  decodeWord_class8 x y 0x2#4

theorem decodeWord_xorReg (x y : Nibble) : decodeWord (packXYN 0x8#4 x y 0x3#4) = .ok (.xorReg (regOf x) (regOf y)) :=
  decodeWord_class8 x y 0x3#4

theorem decodeWord_addReg (x y : Nibble) : decodeWord (packXYN 0x8#4 x y 0x4#4) = .ok (.addReg (regOf x) (regOf y)) :=
  decodeWord_class8 x y 0x4#4

theorem decodeWord_subReg (x y : Nibble) : decodeWord (packXYN 0x8#4 x y 0x5#4) = .ok (.subReg (regOf x) (regOf y)) :=
  decodeWord_class8 x y 0x5#4

theorem decodeWord_subnReg (x y : Nibble) :
    decodeWord (packXYN 0x8#4 x y 0x7#4) = .ok (.subnReg (regOf x) (regOf y)) :=
  decodeWord_class8 x y 0x7#4

end Sys2Proof

namespace Sys2Proof.Machine

/-! R141 to R145, R147: the state after each instruction. -/

theorem exec_orReg (x y : RegIx) (s : State) :
    exec (.orReg x y) s = .next (s.writeV x (s.readV x ||| s.readV y)).seq := rfl

theorem exec_andReg (x y : RegIx) (s : State) :
    exec (.andReg x y) s = .next (s.writeV x (s.readV x &&& s.readV y)).seq := rfl

theorem exec_xorReg (x y : RegIx) (s : State) :
    exec (.xorReg x y) s = .next (s.writeV x (s.readV x ^^^ s.readV y)).seq := rfl

theorem exec_addReg (x y : RegIx) (s : State) :
    exec (.addReg x y) s =
      .next (s.writeResultThenFlag x (s.readV x + s.readV y) (carryOut (s.readV x) (s.readV y))).seq := rfl

theorem exec_subReg (x y : RegIx) (s : State) :
    exec (.subReg x y) s =
      .next (s.writeResultThenFlag x (s.readV x - s.readV y) (strictlyGreater (s.readV x) (s.readV y))).seq := rfl

theorem exec_subnReg (x y : RegIx) (s : State) :
    exec (.subnReg x y) s =
      .next (s.writeResultThenFlag x (s.readV y - s.readV x) (strictlyGreater (s.readV y) (s.readV x))).seq := rfl

/-! The flags and the difference as numbers. -/

/-- A flag that holds a condition is 1 or 0 by it (R27). -/
theorem flagByte_decide_toNat (p : Prop) [Decidable p] : (flagByte (decide p)).toNat = if p then 1 else 0 := by
  by_cases h : p <;> simp [flagByte, h]

theorem flagByte_carryOut_toNat (a b : Byte) :
    (flagByte (carryOut a b)).toNat = if a.toNat + b.toNat > 255 then 1 else 0 := flagByte_decide_toNat _

theorem flagByte_strictlyGreater_toNat (a b : Byte) :
    (flagByte (strictlyGreater a b)).toNat = if a.toNat > b.toNat then 1 else 0 := flagByte_decide_toNat _

/-- The difference of two bytes is the difference of the integers, mod 256. -/
theorem byte_sub_toNat (a b : Byte) : ((a - b).toNat : Int) = (a.toNat - b.toNat : Int) % 256 := by
  have hb := b.isLt
  rw [BitVec.toNat_sub]
  omega

/-! R140: a result, then its flag, then SEQ. -/

/-- VF holds the flag, whichever register the result went to. -/
theorem writeResultThenFlag_seq_readV_vf (s : State) (x : RegIx) (b : Byte) (c : Bool) :
    (s.writeResultThenFlag x b c).seq.readV vf = flagByte c := by
  rw [State.seq_eq, State.setPc_readV, State.writeResultThenFlag_readV, if_pos rfl]

/-- Any register but VF that takes the result still holds it after the flag is written. -/
theorem writeResultThenFlag_seq_readV_result (s : State) {x : RegIx} (hx : x ≠ vf) (b : Byte) (c : Bool) :
    (s.writeResultThenFlag x b c).seq.readV x = b := by
  rw [State.seq_eq, State.setPc_readV, State.writeResultThenFlag_readV, if_neg hx, if_pos rfl]

/-- A result and its flag keep every register but the result's and VF. -/
theorem keepsV_writeResultThenFlag (s : State) (x : RegIx) (b : Byte) (c : Bool) :
    KeepsV [x, vf] s (s.writeResultThenFlag x b c) := by
  intro r hr
  obtain ⟨hx, hvf⟩ : r ≠ x ∧ r ≠ vf := by simpa using hr
  rw [State.writeResultThenFlag_readV, if_neg hvf, if_neg hx]

/-- The result's register, VF and pc are the whole change. -/
theorem onlyV_writeResultThenFlag_seq (s : State) (x : RegIx) (b : Byte) (c : Bool) :
    OnlyV [x, vf] s (s.writeResultThenFlag x b c).seq := by
  refine ⟨seq_pc_toNat (s.writeResultThenFlag x b c), keepsV_writeResultThenFlag s x b c, ?_⟩
  simp [KeepsMem, KeepsDisplay, KeepsFb, KeepsEvents, KeepsControl]

/-- What SUB and SUBN share: a difference mod 256 with the strict comparison of minuend and subtrahend as its flag. -/
theorem difference_then_comparison (s : State) (x : RegIx) (a b : Byte) :
    let t := (s.writeResultThenFlag x (a - b) (strictlyGreater a b)).seq
    OnlyV [x, vf] s t ∧ (x ≠ vf → ((t.readV x).toNat : Int) = (a.toNat - b.toNat : Int) % 256) ∧
      (t.readV vf).toNat = if a.toNat > b.toNat then 1 else 0 := by
  refine ⟨onlyV_writeResultThenFlag_seq s x _ _, fun hx => ?_, ?_⟩
  · rw [writeResultThenFlag_seq_readV_result s hx, byte_sub_toNat]
  · rw [writeResultThenFlag_seq_readV_vf, flagByte_strictlyGreater_toNat]

/-- Settles O25: OR, AND and XOR are one write of the bitwise result to V[x], then SEQ. -/
theorem logicWorksBitByBitWithoutFlag : Obligations.LogicWorksBitByBitWithoutFlag := by
  refine ⟨fun x y => ⟨decodeWord_orReg x y, decodeWord_andReg x y, decodeWord_xorReg x y⟩, fun x y s => ⟨?_, ?_, ?_⟩⟩
  · refine ⟨_, exec_orReg x y s, onlyV_writeV_seq s x _, fun k => ?_⟩
    rw [writeV_seq_readV_same, BitVec.getLsbD_or]
  · refine ⟨_, exec_andReg x y s, onlyV_writeV_seq s x _, fun k => ?_⟩
    rw [writeV_seq_readV_same, BitVec.getLsbD_and]
  · refine ⟨_, exec_xorReg x y s, onlyV_writeV_seq s x _, fun k => ?_⟩
    rw [writeV_seq_readV_same, BitVec.getLsbD_xor]

/-- Settles O26: the sum mod 256 is written first and the carry last, so VF holds the carry even with x = 15. -/
theorem addRegisterSetsCarry : Obligations.AddRegisterSetsCarry := by
  refine ⟨decodeWord_addReg, fun x y s => ?_⟩
  refine ⟨_, exec_addReg x y s, onlyV_writeResultThenFlag_seq s x _ _, fun hx => ?_, ?_⟩
  · rw [writeResultThenFlag_seq_readV_result s hx, BitVec.toNat_add]
  · rw [writeResultThenFlag_seq_readV_vf, flagByte_carryOut_toNat]

/-- Settles O27: SUB and SUBN are one difference and its strict comparison, with the two operands exchanged. -/
theorem subtractionsSetTheStrictComparison : Obligations.SubtractionsSetTheStrictComparison :=
  ⟨fun x y => ⟨decodeWord_subReg x y, decodeWord_subnReg x y⟩, fun x y s =>
    ⟨⟨_, exec_subReg x y s, difference_then_comparison s x (s.readV x) (s.readV y)⟩,
      ⟨_, exec_subnReg x y s, difference_then_comparison s x (s.readV y) (s.readV x)⟩⟩⟩

end Sys2Proof.Machine

/-! SUPPORT. Proof of the statement about LD I, nnn (spec 43_index.md R170): which words it is, and what one write of I
followed by SEQ leaves unchanged. -/

namespace Sys2Proof

/-- R85: the words of LD I, nnn. -/
theorem decodeWord_ldI (nnn : Addr) : decodeWord (packNNN 0xA#4 nnn) = .ok (.ldI nnn) := by
  obtain ⟨hcls, hnnn⟩ := fields_packNNN 0xA#4 nnn
  simp [decodeWord, decodeFields, hcls, hnnn]

end Sys2Proof

namespace Sys2Proof.Machine

/-! One write of I, then SEQ. -/

theorem exec_ldI (nnn : Addr) (s : State) : exec (.ldI nnn) s = .next (s.setI (nnn.setWidth 16)).seq := rfl

/-- I and pc are the whole change. -/
theorem onlyI_setI_seq (s : State) (w : Word) : OnlyI s (s.setI w).seq := by
  refine ⟨seq_pc_toNat (s.setI w), ?_⟩
  simp [KeepsV, KeepsMem, KeepsDisplay, KeepsFb, KeepsEvents, KeepsControl]

/-- I holds what was written. -/
theorem setI_seq_i (s : State) (w : Word) : (s.setI w).seq.i = w := by
  rw [State.seq_eq, State.setPc_i, State.setI_i]

/-- Settles O29: LD I, nnn is one write of I, and widening nnn from 12 to 16 bits keeps it as a number. -/
theorem loadIndexZeroExtends : Obligations.LoadIndexZeroExtends := by
  refine ⟨decodeWord_ldI, fun nnn s => ⟨_, exec_ldI nnn s, ?_, onlyI_setI_seq s (nnn.setWidth 16)⟩⟩
  rw [setI_seq_i, BitVec.toNat_setWidth_of_le (by decide)]

end Sys2Proof.Machine

/-! SUPPORT. Proof of the statement about LD B, Vx (spec 45_memory_block.md R210): which words it is, and what a run of
bytes that may wrap past the top of memory, followed by SEQ, writes and leaves unchanged. -/

namespace Sys2Proof

/-! R85, R86: the words of class 0xF. -/

/-- A word of class 0xF goes to that class's own selection, with the parts after the class as x and nn. -/
theorem decodeWord_classF (x : Nibble) (nn : Byte) :
    decodeWord (packXNN 0xF#4 x nn) = decodeClassF { fields (packXNN 0xF#4 x nn) with x := x, nn := nn } := by
  obtain ⟨hcls, hx, hnn⟩ := fields_packXNN 0xF#4 x nn
  simp only [decodeWord, decodeFields, decodeClassF, hcls, hx, hnn, BitVec.reduceToNat]

theorem decodeWord_ldB (x : Nibble) : decodeWord (packXNN 0xF#4 x 0x33#8) = .ok (.ldB (regOf x)) :=
  decodeWord_classF x 0x33#8

end Sys2Proof

namespace Sys2Proof.Machine

/-! R51, R53: a run of bytes, each address reduced on its own. -/

/-- Outside the placed bytes a run leaves memory alone, wherever it wraps. -/
theorem readByte_writeBytes_ne (m : Memory) (a : Nat) (bs : List Byte) (c : Nat)
    (h : ∀ j, j < bs.length → ea (a + j) ≠ ea c) : (m.writeBytes a bs).readByte c = m.readByte c := by
  induction bs generalizing m a with
  | nil => rfl
  | cons b bs ih =>
    have hhead : ea a ≠ ea c := h 0 (Nat.succ_pos _)
    have htail : ∀ j, j < bs.length → ea (a + 1 + j) ≠ ea c := fun j hj =>
      (congrArg ea (Nat.add_right_comm a 1 j)).trans_ne (h (j + 1) (Nat.succ_lt_succ hj))
    rw [Memory.writeBytes, ih _ _ htail, Memory.readByte_writeByte, if_neg hhead]

/-- A run no longer than memory does not overwrite itself: byte j of it stands at a + j. -/
theorem readByte_writeBytes_add (m : Memory) (a : Nat) (bs : List Byte) (hlen : bs.length ≤ memSize) (j : Nat)
    (hj : j < bs.length) : (m.writeBytes a bs).readByte (a + j) = bs[j] := by
  induction bs generalizing m a j with
  | nil => exact absurd hj (Nat.not_lt_zero j)
  | cons b bs ih =>
    rw [List.length_cons, memSize_eq] at hlen
    cases j with
    | zero =>
      have hapart : ∀ k, k < bs.length → ea (a + 1 + k) ≠ ea a := fun k hk => by
        simp only [ea, memSize_eq]
        omega
      rw [Nat.add_zero, Memory.writeBytes, readByte_writeBytes_ne _ _ _ _ hapart, Memory.readByte_writeByte, if_pos rfl,
        List.getElem_cons_zero]
    | succ j =>
      have htail := ih (m.writeByte a b) (a + 1) (by rw [memSize_eq]; omega) j (Nat.lt_of_succ_lt_succ hj)
      rw [Nat.add_right_comm] at htail
      exact htail

/-! R210: the three digits. -/

/-- The digits of a byte in the order in which LD B stores them. -/
def bcdDigits (v : Byte) : List Byte := [hundreds v, tens v, ones v]

theorem length_bcdDigits (v : Byte) : (bcdDigits v).length = 3 := rfl

theorem hundreds_toNat (v : Byte) : (hundreds v).toNat = v.toNat / 100 := by
  have hv := v.isLt
  rw [hundreds, BitVec.toNat_ofNat]
  omega

theorem tens_toNat (v : Byte) : (tens v).toNat = v.toNat / 10 % 10 := by
  rw [tens, BitVec.toNat_ofNat]
  omega

theorem ones_toNat (v : Byte) : (ones v).toNat = v.toNat % 10 := by
  rw [ones, BitVec.toNat_ofNat]
  omega

/-- LD B is one run of three bytes from I upward, then SEQ. -/
theorem exec_ldB (x : RegIx) (s : State) :
    exec (.ldB x) s = .next (s.setMem (s.mem.writeBytes s.i.toNat (bcdDigits (s.readV x)))).seq := rfl

/-- What memory reads after a store and SEQ is what the stored memory reads. -/
theorem setMem_seq_memRead (s : State) (m : Memory) (a : Nat) : (s.setMem m).seq.memRead a = m.readByte a := by
  rw [State.seq_eq, State.setPc_memRead, State.setMem_memRead]

/-- Memory and pc are the whole change of a store followed by SEQ. -/
theorem setMem_seq_frame (s : State) (m : Memory) :
    let t := (s.setMem m).seq
    WentToNextWord s t ∧ KeepsV [] s t ∧ t.i = s.i ∧ KeepsDisplay s t ∧ KeepsControl s t := by
  refine ⟨seq_pc_toNat (s.setMem m), ?_⟩
  simp [KeepsV, KeepsDisplay, KeepsFb, KeepsEvents, KeepsControl]

/-- Settles O36: the three digits are one run of bytes from I, too short to meet itself when it wraps, and each digit is
below 256, so the byte that holds it is the digit itself. -/
theorem bcdStoresThreeDigits : Obligations.BcdStoresThreeDigits := by
  refine ⟨decodeWord_ldB, fun x s => ⟨_, exec_ldB x s, ?_⟩⟩
  have hdigit (j : Nat) (hj : j < 3) :
      (s.mem.writeBytes s.i.toNat (bcdDigits (s.readV x))).readByte (s.i.toNat + j) = (bcdDigits (s.readV x))[j] :=
    readByte_writeBytes_add _ _ _ ((length_bcdDigits _).trans_le (by decide)) j hj
  simp only [setMem_seq_memRead]
  refine ⟨?_, ?_, ?_, fun a h0 h1 h2 => ?_, setMem_seq_frame s _⟩
  · exact (congrArg BitVec.toNat (hdigit 0 (by decide))).trans (hundreds_toNat _)
  · exact (congrArg BitVec.toNat (hdigit 1 (by decide))).trans (tens_toNat _)
  · exact (congrArg BitVec.toNat (hdigit 2 (by decide))).trans (ones_toNat _)
  · refine readByte_writeBytes_ne _ _ _ _ fun j hj => ?_
    match j, hj with
    | 0, _ => exact h0.symm
    | 1, _ => exact h1.symm
    | 2, _ => exact h2.symm

end Sys2Proof.Machine

/-! SUPPORT. Proofs of the statements about the whole decoder and encoder (spec 30_encoding.md R85, R88, R90): the words
of the instructions not yet treated, the round trip from an instruction to its word and back, and the rejected words. -/

namespace Sys2Proof

/-! R85: the words of the remaining instructions. -/

theorem decodeWord_cls (x n : Nibble) : decodeWord (packXYN 0x0#4 x 0xE#4 n) = .ok .cls := by
  obtain ⟨hcls, -, hy, -⟩ := fields_packXYN 0x0#4 x 0xE#4 n
  simp [decodeWord, decodeFields, decodeClass0, hcls, hy]

theorem decodeWord_seReg (x y n : Nibble) :
    decodeWord (packXYN 0x5#4 x y n) = .ok (.seReg (regOf x) (regOf y)) := by
  obtain ⟨hcls, hx, hy, -⟩ := fields_packXYN 0x5#4 x y n
  simp [decodeWord, decodeFields, hcls, hx, hy]

theorem decodeWord_drw (x y n : Nibble) :
    decodeWord (packXYN 0xD#4 x y n) = .ok (.drw (regOf x) (regOf y) (regOf n)) := by
  obtain ⟨hcls, hx, hy, hn⟩ := fields_packXYN 0xD#4 x y n
  simp [decodeWord, decodeFields, hcls, hx, hy, hn]

theorem decodeWord_shr (x y : Nibble) : decodeWord (packXYN 0x8#4 x y 0x6#4) = .ok (.shr (regOf x) (regOf y)) :=
  decodeWord_class8 x y 0x6#4

theorem decodeWord_shl (x y : Nibble) : decodeWord (packXYN 0x8#4 x y 0xE#4) = .ok (.shl (regOf x) (regOf y)) :=
  decodeWord_class8 x y 0xE#4

theorem decodeWord_addI (x : Nibble) : decodeWord (packXNN 0xF#4 x 0x1E#8) = .ok (.addI (regOf x)) :=
  decodeWord_classF x 0x1E#8

theorem decodeWord_ldF (x : Nibble) : decodeWord (packXNN 0xF#4 x 0x29#8) = .ok (.ldF (regOf x)) :=
  decodeWord_classF x 0x29#8

theorem decodeWord_stBlock (x : Nibble) : decodeWord (packXNN 0xF#4 x 0x55#8) = .ok (.stBlock (regOf x)) :=
  decodeWord_classF x 0x55#8

theorem decodeWord_ldBlock (x : Nibble) : decodeWord (packXNN 0xF#4 x 0x65#8) = .ok (.ldBlock (regOf x)) :=
  decodeWord_classF x 0x65#8

/-! R80, R85: from an instruction to its word and back. -/

/-- The word of an instruction decodes to it: its format's fields are the operands it was packed from. -/
theorem decodeWord_encode (i : Instr) : decodeWord (encode i) = .ok i := by
  cases i with
  | cls => exact decodeWord_cls 0x0#4 0x0#4
  | jp nnn => exact decodeWord_jp nnn
  | ldI nnn => exact decodeWord_ldI nnn
  | seImm | sneImm | ldImm | addImm =>
    simp [encode, decodeWord_seImm, decodeWord_sneImm, decodeWord_ldImm, decodeWord_addImm]
  | seReg | drw => simp [encode, decodeWord_seReg, decodeWord_drw]
  | orReg | andReg | xorReg | addReg | subReg | shr | subnReg | shl =>
    simp [encode, decodeWord_class8, decodeClass8]
  | addI | ldF | ldB | stBlock | ldBlock => simp [encode, decodeWord_classF, decodeClassF]

/-- Two bytes whose word decodes, and whatever follows them. -/
theorem decode_of_decodeWord {hi lo : Byte} {i : Instr} (h : decodeWord (wordOfBytes hi lo) = .ok i)
    (rest : List Byte) : decode (hi :: lo :: rest) = .ok (i, rest) := by
  simp only [decode, h]

/-- Settles O5: the two bytes of a word make that word again, and the word of an instruction decodes to it. -/
theorem decodingTheEncodingGivesTheInstruction : Obligations.DecodingTheEncodingGivesTheInstruction := by
  intro i rest
  refine decode_of_decodeWord ?_ rest
  rw [wordOfBytes_hiByte_loByte, decodeWord_encode]

/-! R88: from a word to its instruction and back. -/

/-- A word is its class and nnn side by side. -/
@[simp] theorem packNNN_fields (w : Word) : packNNN (fields w).cls (fields w).nnn = w := by
  refine BitVec.eq_of_toNat_eq ?_
  have hw := fields_toNat w
  rw [packNNN_toNat]
  omega

/-- A word of format NNN is known by its class. -/
theorem packNNN_eq_of_fields {w : Word} {c : Nibble} (hc : (fields w).cls.toNat = c.toNat) :
    packNNN c (fields w).nnn = w := by
  rw [← BitVec.eq_of_toNat_eq hc, packNNN_fields]

/-- A word of format XNN is known by its class and nn. -/
theorem packXNN_eq_of_fields {w : Word} {c : Nibble} {nn : Byte} (hc : (fields w).cls.toNat = c.toNat)
    (hnn : (fields w).nn.toNat = nn.toNat) : packXNN c (fields w).x nn = w := by
  rw [← BitVec.eq_of_toNat_eq hc, ← BitVec.eq_of_toNat_eq hnn, packXNN_fields]

/-- A word of format XYN is known by its class and n. -/
theorem packXYN_eq_of_fields {w : Word} {c n : Nibble} (hc : (fields w).cls.toNat = c.toNat)
    (hn : (fields w).n.toNat = n.toNat) : packXYN c (fields w).x (fields w).y n = w := by
  rw [← BitVec.eq_of_toNat_eq hc, ← BitVec.eq_of_toNat_eq hn, packXYN_fields]

/-- The mask FFF0 clears the low nibble of a word of a known class. -/
theorem mask_FFF0_of_fields {w : Word} {c : Nibble} (hc : (fields w).cls.toNat = c.toNat) :
    packXYN c (fields w).x (fields w).y 0x0#4 = w &&& 0xFFF0#16 := by
  conv_rhs => rw [← packXYN_eq_of_fields hc rfl]
  refine BitVec.eq_of_getLsbD_eq fun k hk => ?_
  simp only [packXYN, BitVec.getLsbD_and, BitVec.getLsbD_append]
  interval_cases k <;> simp

/-- Settles O6: what a word decodes to takes its operands from the word's fields, and its row fixes the class and the
discriminant, so packing them again gives the word but for the nibbles that the row ignores. -/
theorem encodingTheDecodedWordKeepsAllOperands : Obligations.EncodingTheDecodedWordKeepsAllOperands := by
  intro w i h
  obtain ⟨hi, hr⟩ := decodeFields_ok h
  cases i with
  | cls => exact ((mask_F0F0_eq_iff w 0x0#4 0xE#4).mpr hr).symm
  | seReg x y =>
    obtain ⟨rfl, rfl⟩ : x = _ ∧ y = _ := by simpa [instrsOfFields] using hi
    rw [encode, nibbleOf_regOf, nibbleOf_regOf]
    exact mask_FFF0_of_fields hr
  | jp nnn | ldI nnn =>
    obtain rfl : nnn = _ := by simpa [instrsOfFields] using hi
    exact packNNN_eq_of_fields hr
  | seImm x nn | sneImm x nn | ldImm x nn | addImm x nn =>
    obtain ⟨rfl, rfl⟩ : x = _ ∧ nn = _ := by simpa [instrsOfFields] using hi
    rw [encode, nibbleOf_regOf]
    exact packXNN_eq_of_fields hr rfl
  | orReg x y | andReg x y | xorReg x y | addReg x y | subReg x y | shr x y | subnReg x y | shl x y =>
    obtain ⟨rfl, rfl⟩ : x = _ ∧ y = _ := by simpa [instrsOfFields] using hi
    obtain ⟨hc, hn⟩ := hr
    rw [encode, nibbleOf_regOf, nibbleOf_regOf]
    exact packXYN_eq_of_fields hc hn
  | drw x y n =>
    obtain ⟨rfl, rfl, rfl⟩ : x = _ ∧ y = _ ∧ n = _ := by simpa [instrsOfFields] using hi
    rw [encode, nibbleOf_regOf, nibbleOf_regOf, nibbleOf_regOf]
    exact packXYN_eq_of_fields hr rfl
  | addI x | ldF x | ldB x | stBlock x | ldBlock x =>
    obtain rfl : x = _ := by simpa [instrsOfFields] using hi
    obtain ⟨hc, hnn⟩ := hr
    rw [encode, nibbleOf_regOf]
    exact packXNN_eq_of_fields hc hnn

/-! R86, R90: the words that no row takes. -/

theorem decodeClass0_error_iff (f : Fields) : (∃ u, decodeClass0 f = .error u) ↔ f.y.toNat ≠ 0xE := by
  have hy : f.y = 0xE#4 ↔ f.y.toNat = 0xE := BitVec.toNat_inj.symm
  by_cases h : f.y.toNat = 0xE <;> simp [decodeClass0, hy, h]

theorem decodeClass8_error_iff (f : Fields) :
    (∃ u, decodeClass8 f = .error u) ↔
      f.n.toNat = 0x0 ∨ (0x8 ≤ f.n.toNat ∧ f.n.toNat ≤ 0xD) ∨ f.n.toNat = 0xF := by
  have hn := f.n.isLt
  unfold decodeClass8
  split <;> simp
  case h_9 => grind
  all_goals omega

theorem decodeClassF_error_iff (f : Fields) :
    (∃ u, decodeClassF f = .error u) ↔ f.nn.toNat ∉ [0x1E, 0x29, 0x33, 0x55, 0x65] := by
  unfold decodeClassF
  split <;> simp [*]
  tauto

/-- Settles O4: class by class, what the opcode map rejects is the family of that class. -/
theorem rejectedWordsAreTheUnimplementedFamilies : Obligations.RejectedWordsAreTheUnimplementedFamilies := by
  intro w
  obtain ⟨hcls, -, hy, hn, hnn, -⟩ := fields_toNat w
  simp only [Machine.inUnimplementedFamily, ← hcls, ← hy, ← hn, ← hnn]
  unfold decodeWord decodeFields
  have hlt := (fields w).cls.isLt
  split
  case h_1 h => simp [decodeClass0_error_iff, h]
  case h_9 h => simp [decodeClass8_error_iff, h]
  case h_16 =>
    have h : (fields w).cls.toNat = 0xF := by grind
    simp [decodeClassF_error_iff, h]
  all_goals
    rename_i h
    simp [h]

/-- Settles O2: the twenty words evaluate to their verdicts. -/
theorem specWordsDecodeAsListed : Obligations.SpecWordsDecodeAsListed :=
  ⟨rfl, rfl, rfl, rfl, rfl, rfl, rfl, rfl, rfl, rfl, rfl, rfl, rfl, rfl, rfl, rfl, rfl, rfl, rfl, rfl⟩

end Sys2Proof

/-! SUPPORT. Proofs of the statements about the remaining instructions that write registers, I and pc (spec
40_control_flow.md R114; 42_alu.md R146, R148; 43_index.md R171, R172). -/

namespace Sys2Proof.Machine

theorem exec_seReg (x y : RegIx) (s : State) :
    exec (.seReg x y) s = .next (s.skipIf (s.readV x == s.readV y)) := rfl

theorem exec_shr (x y : RegIx) (s : State) :
    exec (.shr x y) s =
      .next (s.writeResultThenFlag x (s.shiftOperand x y >>> 1) (shiftedOutRight (s.shiftOperand x y))).seq := rfl

theorem exec_shl (x y : RegIx) (s : State) :
    exec (.shl x y) s =
      .next (s.writeResultThenFlag x (s.shiftOperand x y <<< 1) (shiftedOutLeft (s.shiftOperand x y))).seq := rfl

theorem exec_addI (x : RegIx) (s : State) :
    exec (.addI x) s = .next (s.setI (s.i + (s.readV x).setWidth 16)).seq := rfl

theorem exec_ldF (x : RegIx) (s : State) :
    exec (.ldF x) s = .next (s.setI (BitVec.ofNat 16 (fontBase + glyphBytes * (s.readV x).toNat))).seq := rfl

/-- Settles O21: SE Vx, Vy is SKIP under the comparison of the two registers, and its low nibble selects nothing. -/
theorem registerSkipFollowsTheComparison : Obligations.RegisterSkipFollowsTheComparison := by
  refine ⟨decodeWord_seReg, fun x y s => ⟨_, exec_seReg x y s, onlyPc_skipIf s _, ?_⟩⟩
  simp only [skipIf_pc_toNat, beq_iff_eq]

/-! R146, R148: the source of a shift, the shifted byte and the lost bit, as numbers. -/

theorem shiftOperand_toNat (s : State) (x y : RegIx) :
    (s.shiftOperand x y).toNat = if s.straps.shiftSrc = .vx then (s.readV x).toNat else (s.readV y).toNat := by
  cases h : s.straps.shiftSrc <;> simp [State.shiftOperand, h]

theorem byte_shiftRight_one_toNat (b : Byte) : (b >>> 1).toNat = b.toNat / 2 := by
  rw [BitVec.toNat_ushiftRight, Nat.shiftRight_eq_div_pow, Nat.pow_one]

theorem byte_shiftLeft_one_toNat (b : Byte) : (b <<< 1).toNat = 2 * b.toNat % 256 := by
  rw [BitVec.toNat_shiftLeft, Nat.shiftLeft_eq, Nat.pow_one, Nat.mul_comm]

theorem flagByte_shiftedOutRight_toNat (b : Byte) : (flagByte (shiftedOutRight b)).toNat = b.toNat % 2 := by
  have hbit : shiftedOutRight b = decide (b.toNat % 2 = 1) := by
    simp [shiftedOutRight, BitVec.getLsbD, Nat.testBit_zero]
  rw [hbit, flagByte_decide_toNat]
  split <;> omega

theorem flagByte_shiftedOutLeft_toNat (b : Byte) : (flagByte (shiftedOutLeft b)).toNat = b.toNat / 128 := by
  have hlt := b.isLt
  have hbit : shiftedOutLeft b = decide (b.toNat / 128 = 1) := by
    rw [shiftedOutLeft, BitVec.getLsbD, Nat.testBit_eq_decide_div_mod_eq, decide_eq_decide]
    omega
  rw [hbit, flagByte_decide_toNat]
  split <;> omega

/-- Settles O28: the source by the strap is halved or doubled mod 256, and the flag, written last, is the bit lost. -/
theorem shiftsMoveOneBitIntoTheFlag : Obligations.ShiftsMoveOneBitIntoTheFlag := by
  refine ⟨fun x y => ⟨decodeWord_shr x y, decodeWord_shl x y⟩, fun x y s => ?_⟩
  rw [← shiftOperand_toNat]
  refine ⟨⟨_, exec_shr x y s, onlyV_writeResultThenFlag_seq s x _ _, fun hx => ?_, ?_⟩,
    ⟨_, exec_shl x y s, onlyV_writeResultThenFlag_seq s x _ _, fun hx => ?_, ?_⟩⟩
  · rw [writeResultThenFlag_seq_readV_result s hx, byte_shiftRight_one_toNat]
  · rw [writeResultThenFlag_seq_readV_vf, flagByte_shiftedOutRight_toNat]
  · rw [writeResultThenFlag_seq_readV_result s hx, byte_shiftLeft_one_toNat]
  · rw [writeResultThenFlag_seq_readV_vf, flagByte_shiftedOutLeft_toNat]

/-- Settles O30: ADD I is a sum of 16-bit words, and five times a byte fits 16 bits; neither writes but I and pc. -/
theorem indexArithmeticWrapsWithoutFlag : Obligations.IndexArithmeticWrapsWithoutFlag := by
  refine ⟨fun x => ⟨decodeWord_addI x, decodeWord_ldF x⟩, fun x s => ?_⟩
  have hv := (s.readV x).isLt
  refine ⟨⟨_, exec_addI x s, ?_, onlyI_setI_seq s _⟩, ⟨_, exec_ldF x s, ?_, onlyI_setI_seq s _⟩⟩
  · rw [setI_seq_i, BitVec.toNat_add, BitVec.toNat_setWidth_of_le (by decide)]
  · rw [setI_seq_i, BitVec.toNat_ofNat, fontBase_eq, glyphBytes_eq]
    omega

/-! R88 (c): the canonical form under the strap. -/

/-- The mask FF0F clears y in a word of format XYN. -/
theorem mask_FF0F (c x y n : Nibble) : packXYN c x y n &&& 0xFF0F#16 = packXYN c x 0x0#4 n := by
  refine BitVec.eq_of_getLsbD_eq fun k hk => ?_
  simp only [packXYN, BitVec.getLsbD_and, BitVec.getLsbD_append]
  interval_cases k <;> simp

/-- The source of a shift does not see the y that the canonical form clears. -/
theorem shiftOperand_canonical (s : State) (x y : RegIx) :
    s.shiftOperand x (if s.straps.shiftSrc = .vx then 0 else y) = s.shiftOperand x y := by
  cases h : s.straps.shiftSrc <;> simp [State.shiftOperand, h]

theorem exec_toCanonical (i : Instr) (s : State) : exec (i.toCanonical s.straps.shiftSrc) s = exec i s := by
  cases i with
  | shr x y => rw [Instr.toCanonical, exec_shr, exec_shr, shiftOperand_canonical]
  | shl x y => rw [Instr.toCanonical, exec_shl, exec_shl, shiftOperand_canonical]
  | _ => rfl

/-- Settles O50: only SHR and SHL have a canonical form of their own, and it differs in the y that the strap ignores. -/
theorem canonicalFormRunsAlikeUnderTheStrap : Obligations.CanonicalFormRunsAlikeUnderTheStrap := by
  refine ⟨exec_toCanonical, fun i src => ?_⟩
  cases i with
  | shr x y | shl x y =>
    cases src with
    | vx => exact ⟨rfl, (mask_FF0F ..).symm⟩
    | vy => exact ⟨rfl, rfl⟩
  | _ => cases src <;> exact ⟨rfl, rfl⟩

end Sys2Proof.Machine

/-! SUPPORT. Proofs of the statements about block store and block load (spec 45_memory_block.md R211, R212) and about
the reduction of addresses (20_memory.md R51). -/

namespace Sys2Proof.Machine

theorem exec_stBlock (x : RegIx) (s : State) :
    exec (.stBlock x) s = .next ((s.setMem (storeBlock s.readV s.i.toNat (x.val + 1) s.mem)).advanceI x).seq := rfl

theorem exec_ldBlock (x : RegIx) (s : State) :
    exec (.ldBlock x) s = .next ((loadBlock s.i.toNat (x.val + 1) s).advanceI x).seq := rfl

/-- I after a block as a number: x + 1 further on mod 65536 under INC, and where it was under NONE. -/
theorem advanceI_i_toNat (s : State) (x : RegIx) :
    (s.advanceI x).i.toNat =
      if s.straps.loadStoreInc = .inc then (s.i.toNat + x.val + 1) % 65536 else s.i.toNat := by
  rw [advanceI_i]
  cases h : s.straps.loadStoreInc <;> simp

/-- The registers after LD Vx, [I]. -/
theorem ldBlock_readV (s : State) (x k : RegIx) :
    ((loadBlock s.i.toNat (x.val + 1) s).advanceI x).seq.readV k =
      if k ≤ x then s.memRead (s.i.toNat + k.val) else s.readV k := by
  rw [State.seq_eq, State.setPc_readV, advanceI_readV, loadBlock_readV _ _ (by omega)]
  simp only [Nat.lt_succ_iff, Fin.le_def]

/-- The bytes after LD [I], Vx. -/
theorem stBlock_memRead (s : State) (x : RegIx) (a : Nat) :
    ((s.setMem (storeBlock s.readV s.i.toNat (x.val + 1) s.mem)).advanceI x).seq.memRead a =
      (storeBlock s.readV s.i.toNat (x.val + 1) s.mem).readByte a := by
  rw [State.seq_eq, State.setPc_memRead, advanceI_memRead, State.setMem_memRead]

/-- Settles O37: a block of at most sixteen bytes does not meet itself, so byte k of it holds V[k]. -/
theorem blockStoreWritesV0ToVx : Obligations.BlockStoreWritesV0ToVx := by
  refine ⟨decodeWord_stBlock, fun x s => ⟨_, exec_stBlock x s, fun k hk => ?_, fun a ha => ?_, ?_, ?_⟩⟩
  · rw [stBlock_memRead, readByte_storeBlock _ _ _ _ _ (Nat.lt_succ_of_le hk) (by rw [memSize_eq]; omega)]
    exact congrArg s.readV (Fin.ext (regNumber_val k.isLt))
  · rw [stBlock_memRead]
    refine readByte_storeBlock_ne _ _ _ _ _ fun j hj => ?_
    exact (ha ⟨j, by omega⟩ (Fin.le_def.mpr (Nat.le_of_lt_succ hj))).symm
  · exact advanceI_i_toNat _ x
  · refine ⟨(seq_pc_toNat _).trans (by simp), ?_⟩
    simp [KeepsV, KeepsDisplay, KeepsFb, KeepsEvents, KeepsControl]

/-- Settles O38: the load of x + 1 registers gives each of them its byte and leaves the others. -/
theorem blockLoadReadsV0ToVx : Obligations.BlockLoadReadsV0ToVx := by
  refine ⟨decodeWord_ldBlock, fun x s => ⟨_, exec_ldBlock x s, ldBlock_readV s x, ?_, ?_⟩⟩
  · rw [State.seq_eq, State.setPc_i, advanceI_i_toNat, loadBlock_straps, loadBlock_i]
  · refine ⟨(seq_pc_toNat _).trans (by simp), ?_⟩
    simp [KeepsMem, KeepsDisplay, KeepsFb, KeepsEvents, KeepsControl]

/-- A read reduces its address. -/
theorem memRead_mod (s : State) (a : Nat) : s.memRead (a % 4096) = s.memRead a :=
  congrArg s.mem.read (ea_ea a)

theorem memWrite_memRead (s : State) (a : Nat) (b : Byte) (c : Nat) :
    (s.memWrite a b).memRead c = if c % 4096 = a % 4096 then b else s.memRead c := by
  rw [State.memWrite_eq, State.setMem_memRead, Memory.readByte_writeByte]
  simp only [ea, memSize_eq, eq_comm (a := a % 4096), State.memRead]

/-- Settles O47: an access sees an address only through its remainder mod 4096, so that byte 0 of a block at 0x1005 is
the byte at 0x005. -/
theorem everyAccessReducesItsAddress : Obligations.EveryAccessReducesItsAddress := by
  refine ⟨fun _ => rfl, fun s a => (memRead_mod s a).symm, memWrite_memRead, fun s hi => ⟨?_, ?_⟩⟩
  · obtain ⟨t, ht, hstored, -⟩ := blockStoreWritesV0ToVx.2 0 s
    rw [hi] at hstored
    exact ⟨t, ht, (memRead_mod t 0x1005).trans (hstored 0 (Nat.le_refl _))⟩
  · obtain ⟨t, ht, hloaded, -⟩ := blockLoadReadsV0ToVx.2 0 s
    rw [hi] at hloaded
    exact ⟨t, ht, (hloaded 0).trans (memRead_mod s 0x1005).symm⟩

end Sys2Proof.Machine

/-! SUPPORT. Proofs of the statements about the display instructions (spec 44_display.md R181 to R189): which words they
are, and what the run of visits in a draw means for the pixels, VF and the events of the state after it. -/

namespace Sys2Proof.Machine

theorem exec_cls (s : State) : exec .cls s = .next ((s.setFb fbBlank).emit [.clear]).seq := rfl

theorem exec_drw (x y : RegIx) (n : Fin 16) (s : State) :
    exec (.drw x y n) s =
      .next (((s.setFb (s.sprite x y n).fb).writeV vf (flagByte (s.sprite x y n).hit)).emit
        ((s.sprite x y n).events ++ [.present])).seq := rfl

/-- Settles O31: CLS puts the blank framebuffer, whose pixels are 0, emits one clear, and goes on by SEQ. -/
theorem clearScreenClearsAndReportsOnce : Obligations.ClearScreenClearsAndReportsOnce := by
  refine ⟨decodeWord_cls, fun s => ⟨_, exec_cls s, pixel_fbBlank, rfl, seq_pc_toNat _, ?_⟩⟩
  simp [KeepsV, KeepsMem, KeepsControl]

/-! R184 to R187: one draw, by its cells and the sprite bits over them. -/

/-- The cells that a draw visits, in order. -/
def State.spriteCells (s : State) (x y : RegIx) (n : Fin 16) : List (Column × PixelRow) :=
  visitedCells (s.originX x) (s.originY y) n.val

/-- The sprite bit over a cell. -/
def State.spriteBitAt (s : State) (x y : RegIx) : Column × PixelRow → Bool :=
  cellBit (fun r => s.memRead (s.i.toNat + r)) (s.originX x) (s.originY y)

theorem nodup_spriteCells (s : State) (x y : RegIx) (n : Fin 16) : (s.spriteCells x y n).Nodup :=
  nodup_visitedCells _ _ _

/-- A draw is the run of visits to its cells under its bits. -/
theorem sprite_eq_visits (s : State) (x y : RegIx) (n : Fin 16) :
    s.sprite x y n =
      (s.spriteCells x y n).foldl (Draw.visitCell s.straps.collisionRule (s.spriteBitAt x y)) ⟨s.fb, false, []⟩ :=
  sprite_eq_foldl s x y n

/-- The picture after a draw: each visited pixel XORed with the bit over it. -/
theorem sprite_fb_pixel (s : State) (x y : RegIx) (n : Fin 16) (px : Column) (py : PixelRow) :
    (s.sprite x y n).fb.pixel px py =
      (s.fb.pixel px py ^^ (decide ((px, py) ∈ s.spriteCells x y n) && s.spriteBitAt x y (px, py))) := by
  rw [sprite_eq_visits, foldl_visit_pixel _ _ _ (nodup_spriteCells ..)]

/-- The collision flag of a draw, by the values before it. -/
theorem sprite_hit (s : State) (x y : RegIx) (n : Fin 16) :
    (s.sprite x y n).hit = (s.spriteCells x y n).any fun c =>
      collides s.straps.collisionRule (s.fb.pixel c.1 c.2) (s.spriteBitAt x y c) := by
  rw [sprite_eq_visits, foldl_visit_hit _ _ _ (nodup_spriteCells ..), Bool.false_or]

/-- The pixel events of a draw, with the values after it. -/
theorem sprite_events (s : State) (x y : RegIx) (n : Fin 16) :
    (s.sprite x y n).events = ((s.spriteCells x y n).filter (s.spriteBitAt x y)).map fun c =>
      .setPixel c.1 c.2 ((s.sprite x y n).fb.pixel c.1 c.2) := by
  have hev : (s.sprite x y n).events = ((s.spriteCells x y n).filter (s.spriteBitAt x y)).map fun c =>
      .setPixel c.1 c.2 (!(s.fb.pixel c.1 c.2)) := by
    rw [sprite_eq_visits, foldl_visit_events _ _ _ (nodup_spriteCells ..), List.nil_append]
  rw [hev]
  refine List.map_congr_left fun c hc => ?_
  obtain ⟨hmem, hbit⟩ := List.mem_filter.mp hc
  simp [sprite_fb_pixel, hmem, hbit]

theorem collides_eq (rule : CollisionRule) (old b : Bool) :
    collides rule old b = (old && (rule == .anyPreset || b)) := by
  cases rule with
  | eraseOnly => rfl
  | anyPreset => exact (Bool.and_true old).symm

/-- Settles O32: the draw is the run of visits to the cells of the sprite's box, none of them twice, so pixels, flag and
events are said of each cell by its value before the draw. -/
theorem drawCompositesTheClippedSprite : Obligations.DrawCompositesTheClippedSprite := by
  refine ⟨decodeWord_drw, fun x y n s => ⟨_, exec_drw x y n s, fun px py => ?_, ?_, ?_, seq_pc_toNat _, ?_⟩⟩
  · refine (sprite_fb_pixel s x y n px py).trans ?_
    rw [State.spriteCells, Bool.decide_congr (mem_visitedCells ..), Bool.decide_coe]
    rfl
  · refine (writeV_seq_readV_same _ vf _).trans ?_
    rw [sprite_hit]
    simp only [collides_eq]
    rfl
  · rw [State.seq_eq, State.setPc_events, State.emit_events, sprite_events, List.append_assoc]
    rfl
  · refine ⟨keepsV_writeV _ vf _, ?_⟩
    simp [KeepsMem, KeepsControl]

/-! R189: the same sprite drawn twice. -/

section

variable {x y : RegIx} {n : Fin 16} {s t : State} (h : exec (.drw x y n) s = .next t)
include h

theorem drw_fb_pixel (px : Column) (py : PixelRow) :
    t.fb.pixel px py =
      (s.fb.pixel px py ^^ (decide ((px, py) ∈ s.spriteCells x y n) && s.spriteBitAt x y (px, py))) := by
  rw [exec_drw, Host.Outcome.next.injEq] at h
  rw [← h]
  exact sprite_fb_pixel s x y n px py

theorem drw_readV_vf : t.readV vf = flagByte (s.sprite x y n).hit := by
  rw [exec_drw, Host.Outcome.next.injEq] at h
  rw [← h]
  exact writeV_seq_readV_same _ vf _

/-- A draw with coordinates other than VF leaves all that a draw reads but the picture: its cells, its bits and the
collision rule. -/
theorem drw_keeps_sprite (hx : x ≠ vf) (hy : y ≠ vf) :
    t.spriteCells x y n = s.spriteCells x y n ∧ t.spriteBitAt x y = s.spriteBitAt x y ∧ t.straps = s.straps := by
  rw [exec_drw, Host.Outcome.next.injEq] at h
  rw [← h]
  simp [State.spriteCells, State.spriteBitAt, State.originX, State.originY, hx, hy]

end

/-- Settles O33: the second draw visits the same cells under the same bits, so each pixel is XORed twice with one bit;
and a pixel that the first draw lit is visited by the second, set, and under a 1 bit. -/
theorem drawingTwiceRestoresThePicture : Obligations.DrawingTwiceRestoresThePicture := by
  intro x y n s t u hx hy ht hu
  obtain ⟨hcells, hbits, hstraps⟩ := drw_keeps_sprite ht hx hy
  refine ⟨fun px py => ?_, fun hrule ⟨px, py, hoff, hon⟩ => ?_⟩
  · rw [drw_fb_pixel hu, hcells, hbits, drw_fb_pixel ht, Bool.xor_assoc, Bool.xor_self, Bool.xor_false]
  · obtain ⟨hmem, hbit⟩ : (px, py) ∈ s.spriteCells x y n ∧ s.spriteBitAt x y (px, py) = true := by
      simpa [drw_fb_pixel ht, hoff] using hon
    have hhit : (t.sprite x y n).hit = true := by
      rw [sprite_hit, hcells, hbits, hstraps, hrule, List.any_eq_true]
      exact ⟨(px, py), hmem, by simp [collides, hon, hbit]⟩
    rw [drw_readV_vf hu, hhit]
    rfl

end Sys2Proof.Machine

/-! SUPPORT. Proofs of the statements that speak of every instruction (spec 10_state.md R22; 40_control_flow.md R110;
44_display.md R180, R192): one case for each kind of change an instruction makes. -/

namespace Sys2Proof.Machine

/-- Settles O16: no meaning stops, and none writes a field of the control state. -/
theorem everyInstructionCompletesAndKeepsControlState : Obligations.EveryInstructionCompletesAndKeepsControlState := by
  intro i s
  cases i with
  | stBlock x => exact ⟨_, exec_stBlock x s, by simp [KeepsControl]⟩
  | ldBlock x => exact ⟨_, exec_ldBlock x s, by simp [KeepsControl]⟩
  | _ => exact ⟨_, rfl, rfl, rfl, rfl, rfl, rfl⟩

section

variable {i : Instr} {s t : State} (h : exec i s = .next t)
include h

theorem exec_keepsControl : KeepsControl s t := by
  obtain ⟨u, hu, hkeeps⟩ := everyInstructionCompletesAndKeepsControlState i s
  obtain rfl : u = t := Host.Outcome.next.inj (hu.symm.trans h)
  exact hkeeps

/-- R110: JP goes to its nnn, the skips go on by SKIP, every other instruction by SEQ. -/
theorem exec_pc_toNat : t.pc.toNat = nextPc s i := by
  cases i with
  | jp => cases h; rfl
  | seImm x nn | sneImm x nn | seReg x y =>
    cases h
    refine (skipIf_pc_toNat s _).trans ?_
    simp [nextPc]
  | stBlock | ldBlock =>
    cases h
    refine (seq_pc_toNat _).trans ?_
    simp [nextPc]
  | _ => cases h; exact seq_pc_toNat _

/-- R22: the registers outside the writes column. -/
theorem exec_keepsV : KeepsV (writesV i) s t := by
  cases i with
  | jp | seImm | sneImm | seReg | cls | ldI | addI | ldF | ldB => cases h; exact fun _ _ => rfl
  | ldImm | addImm | orReg | andReg | xorReg => cases h; exact keepsV_writeV s _ _
  | addReg | subReg | shr | subnReg | shl => cases h; exact keepsV_writeResultThenFlag s _ _ _
  | drw => cases h; exact keepsV_writeV _ vf _
  | stBlock => cases h; exact fun r _ => advanceI_readV _ _ r
  | ldBlock x =>
    cases h
    intro r hr
    have hout : ¬ r ≤ x := by simpa [writesV] using hr
    rw [ldBlock_readV, if_neg hout]

end

/-- Settles O22: the pc of each kind of instruction, as a number. -/
theorem pcFollowsTheNextPcTable : Obligations.PcFollowsTheNextPcTable := fun _ _ _ => exec_pc_toNat

/-- Settles O41: each kind of change writes the registers of its row and no other. -/
theorem onlyListedRegistersAreWritten : Obligations.OnlyListedRegistersAreWritten := fun _ _ _ => exec_keepsV

/-- Settles O42: each kind of change, with the parts of the state that it does not write. -/
theorem onlyTheNamedInstructionsWriteEachPart : Obligations.OnlyTheNamedInstructionsWriteEachPart := by
  intro i s t h
  cases i with
  | ldI | addI | ldF => cases h; exact ⟨False.elim, fun _ _ => rfl, fun _ => ⟨fun _ _ => rfl, rfl⟩⟩
  | ldB => cases h; exact ⟨fun _ => rfl, False.elim, fun _ => ⟨fun _ _ => rfl, rfl⟩⟩
  | cls | drw => cases h; exact ⟨fun _ => rfl, fun _ _ => rfl, False.elim⟩
  | stBlock x =>
    cases h
    refine ⟨fun hkeep => ?_, False.elim, fun _ => ?_⟩
    · simp [advanceI_i, show s.straps.loadStoreInc = .keep from hkeep]
    · simp [KeepsDisplay, KeepsFb, KeepsEvents]
  | ldBlock x =>
    cases h
    refine ⟨fun hkeep => ?_, fun _ => ?_, fun _ => ?_⟩
    · simp [advanceI_i, show s.straps.loadStoreInc = .keep from hkeep]
    · simp [KeepsMem]
    · simp [KeepsDisplay, KeepsFb, KeepsEvents]
  | _ => cases h; exact ⟨fun _ => rfl, fun _ _ => rfl, fun _ => ⟨fun _ _ => rfl, rfl⟩⟩

/-! R180, R192: the events of one instruction. -/

/-- The pixel events of a draw are neither present nor clear. -/
theorem count_sprite_events {e : Event} (he : ∀ px py b, e ≠ .setPixel px py b) (s : State) (x y : RegIx) (n : Fin 16) :
    (s.sprite x y n).events.count e = 0 := by
  rw [sprite_events, List.count_eq_zero]
  intro hmem
  obtain ⟨c, -, hc⟩ := List.mem_map.mp hmem
  exact he _ _ _ hc.symm

/-- Settles O34: CLS appends its one clear, DRW its pixel events and one present, every other instruction nothing. -/
theorem eventsCountDrawsAndClears : Obligations.EventsCountDrawsAndClears := by
  intro i s t h
  cases i with
  | cls => cases h; exact ⟨[.clear], rfl, rfl, rfl⟩
  | drw x y n =>
    cases h
    refine ⟨(s.sprite x y n).events ++ [.present], rfl, ?_, ?_⟩
    · rw [List.count_append, count_sprite_events (e := .present) (by simp)]
      rfl
    · rw [List.count_append, count_sprite_events (e := .clear) (by simp)]
      rfl
  | stBlock | ldBlock => cases h; exact ⟨[], by simp, rfl, rfl⟩
  | _ => cases h; exact ⟨[], (List.append_nil _).symm, rfl, rfl⟩

/-- The pixel events of a draw, applied to the picture before it, give the picture after it. -/
theorem replay_sprite_events (s : State) (x y : RegIx) (n : Fin 16) :
    Sink.replay s.fb (s.sprite x y n).events = (s.sprite x y n).fb := by
  obtain ⟨es, hes, hreplay⟩ := replay_foldl_visit s.straps.collisionRule (s.spriteBitAt x y) (s.spriteCells x y n)
    ⟨s.fb, false, []⟩
  rw [← sprite_eq_visits, List.nil_append] at hes
  rw [← sprite_eq_visits] at hreplay
  rw [hes, hreplay]

/-- R192: what an instruction appends to the event log leads a Sink from its framebuffer before to the one after. -/
theorem exec_replay {i : Instr} {s t : State} (h : exec i s = .next t) :
    ∃ es, t.events = s.events ++ es ∧ Sink.replay s.fb es = t.fb := by
  cases i with
  | cls => cases h; exact ⟨[.clear], rfl, rfl⟩
  | drw x y n =>
    cases h
    refine ⟨(s.sprite x y n).events ++ [.present], rfl, ?_⟩
    rw [replay_append, replay_sprite_events]
    rfl
  | stBlock | ldBlock => cases h; exact ⟨[], by simp, by simp⟩
  | _ => cases h; exact ⟨[], (List.append_nil _).symm, rfl⟩

/-! R30, R64: memory after one instruction. -/

theorem exec_wf_mem {i : Instr} {s t : State} (h : exec i s = .next t) (hwf : s.mem.wf) : t.mem.wf := by
  cases i with
  | ldB => cases h; exact Memory.wf_writeBytes hwf _ (bcdDigits _)
  | stBlock => cases h; simpa using wf_storeBlock s.readV _ _ hwf
  | ldBlock => cases h; simpa using hwf
  | _ => cases h; exact hwf

/-- Every byte after a run no longer than memory, by its offset from the run's first address. -/
theorem readByte_writeBytes_offset (m : Memory) (a : Nat) (bs : List Byte) (hlen : bs.length ≤ memSize) (c : Nat) :
    (m.writeBytes a bs).readByte c =
      if h : (c + (4096 - a % 4096)) % 4096 < bs.length then bs[(c + (4096 - a % 4096)) % 4096]
      else m.readByte c := by
  split
  · rename_i h
    have hc : ea c = ea (a + (c + (4096 - a % 4096)) % 4096) := by simp only [ea, memSize_eq]; omega
    rw [← readByte_writeBytes_add m a bs hlen _ h, Memory.readByte, hc]
    rfl
  · rename_i h
    refine readByte_writeBytes_ne m a bs c fun j hj hc => h ?_
    simp only [ea, memSize_eq] at hc hlen
    omega

/-- The three digits by their offset from I. -/
theorem ldB_memRead_toNat (s : State) (x : RegIx) (a : Nat) :
    ((s.setMem (s.mem.writeBytes s.i.toNat (bcdDigits (s.readV x)))).seq.memRead a).toNat = byteAfter (.ldB x) s a := by
  rw [setMem_seq_memRead, readByte_writeBytes_offset _ _ _ ((length_bcdDigits _).trans_le (by decide))]
  simp only [length_bcdDigits, byteAfter]
  generalize (a + (4096 - s.i.toNat % 4096)) % 4096 = d
  match d with
  | 0 => exact hundreds_toNat _
  | 1 => exact tens_toNat _
  | 2 => exact ones_toNat _
  | d + 3 => simp [State.memRead]

/-- The stored registers by their offset from I. -/
theorem stBlock_memRead_toNat (s : State) (x : RegIx) (a : Nat) :
    (((s.setMem (storeBlock s.readV s.i.toNat (x.val + 1) s.mem)).advanceI x).seq.memRead a).toNat =
      byteAfter (.stBlock x) s a := by
  rw [stBlock_memRead, readByte_storeBlock_eq _ _ _ _ (by rw [memSize_eq]; omega)]
  simp only [byteAfter, Nat.lt_succ_iff]
  split
  · rename_i h
    exact congrArg (fun r => (s.readV r).toNat) (Fin.ext (regNumber_val (by omega)))
  · rfl

/-- Every byte after an instruction is the one it stored there or the byte from before. -/
theorem exec_memRead_toNat {i : Instr} {s t : State} (h : exec i s = .next t) (a : Nat) :
    (t.memRead a).toNat = byteAfter i s a := by
  cases i with
  | ldB x => cases h; exact ldB_memRead_toNat s x a
  | stBlock x => cases h; exact stBlock_memRead_toNat s x a
  | ldBlock x => cases h; simp [byteAfter]
  | _ => cases h; rfl

/-- Settles O11: the word is its two bytes, and the second one's address is reduced on its own. -/
theorem fetchIsBigEndianAndWraps : Obligations.FetchIsBigEndianAndWraps := by
  intro s
  rw [State.fetchWord, wordOfBytes_toNat, memRead_mod]

/-- Settles O39: the next fetch reads memory after the instruction at the instruction's next pc. -/
theorem storedWordIsFetchedNext : Obligations.StoredWordIsFetchedNext := by
  intro i s t h
  rw [fetchIsBigEndianAndWraps, exec_memRead_toNat h, exec_memRead_toNat h, exec_pc_toNat h]

end Sys2Proof.Machine

/-! SUPPORT. Proof that an instruction's results depend on nothing but its inputs (spec 10_state.md R22, R28, R32): each
kind of change, made in two states with equal inputs, gives equal results. -/

namespace Sys2Proof.Machine

/-- Two states agree on what any instruction may read beside general registers. -/
structure SameInputs (s₁ s₂ : State) : Prop where
  pc     : s₁.pc = s₂.pc
  i      : s₁.i = s₂.i
  mem    : s₁.mem = s₂.mem
  fb     : s₁.fb = s₂.fb
  straps : s₁.straps = s₂.straps

/-- Two steps from s₁ to t₁ and from s₂ to t₂ have the same results: those that
`Obligations.ResultsDependOnListedReadsOnly` lists. -/
def SameResults (written : List RegIx) (s₁ s₂ t₁ t₂ : State) : Prop :=
  t₁.pc = t₂.pc ∧ t₁.i = t₂.i ∧ t₁.mem = t₂.mem ∧ t₁.fb = t₂.fb ∧ (∀ r ∈ written, t₁.readV r = t₂.readV r) ∧
    ∃ es, t₁.events = s₁.events ++ es ∧ t₂.events = s₂.events ++ es

section

variable {s₁ s₂ : State} (hs : SameInputs s₁ s₂)
include hs

theorem sameResults_setPc {a₁ a₂ : Addr} (ha : a₁ = a₂) : SameResults [] s₁ s₂ (s₁.setPc a₁) (s₂.setPc a₂) :=
  ⟨ha, hs.i, hs.mem, hs.fb, nofun, [], by simp⟩

theorem sameResults_skipIf {c₁ c₂ : Bool} (hc : c₁ = c₂) : SameResults [] s₁ s₂ (s₁.skipIf c₁) (s₂.skipIf c₂) :=
  sameResults_setPc hs (by rw [hc, State.npc, State.npc, hs.pc])

theorem sameResults_writeV_seq (x : RegIx) {b₁ b₂ : Byte} (hb : b₁ = b₂) :
    SameResults [x] s₁ s₂ (s₁.writeV x b₁).seq (s₂.writeV x b₂).seq :=
  ⟨by simp [hs.pc], hs.i, hs.mem, hs.fb, by simp [hb], [], by simp⟩

theorem sameResults_writeResultThenFlag_seq (x : RegIx) {b₁ b₂ : Byte} {c₁ c₂ : Bool} (hb : b₁ = b₂) (hc : c₁ = c₂) :
    SameResults [x, vf] s₁ s₂ (s₁.writeResultThenFlag x b₁ c₁).seq (s₂.writeResultThenFlag x b₂ c₂).seq :=
  ⟨by simp [hs.pc], hs.i, hs.mem, hs.fb, by simp [hb, hc], [], by simp⟩

theorem sameResults_setI_seq {w₁ w₂ : Word} (hw : w₁ = w₂) : SameResults [] s₁ s₂ (s₁.setI w₁).seq (s₂.setI w₂).seq :=
  ⟨by simp [hs.pc], hw, hs.mem, hs.fb, nofun, [], by simp⟩

theorem sameResults_setMem_seq {m₁ m₂ : Memory} (hm : m₁ = m₂) :
    SameResults [] s₁ s₂ (s₁.setMem m₁).seq (s₂.setMem m₂).seq :=
  ⟨by simp [hs.pc], hs.i, hm, hs.fb, nofun, [], by simp⟩

theorem memRead_eq_of_sameInputs : s₁.memRead = s₂.memRead := by
  funext a
  rw [State.memRead, State.memRead, hs.mem]

/-- The source of a shift is one of the registers that the shift's row lists under the strap. -/
theorem shiftOperand_eq_of_sameInputs {x y : RegIx}
    (hread : ∀ r ∈ if s₁.straps.shiftSrc = .vx then [x] else [y], s₁.readV r = s₂.readV r) :
    s₁.shiftOperand x y = s₂.shiftOperand x y := by
  simp only [State.shiftOperand, ← hs.straps]
  cases hsrc : s₁.straps.shiftSrc with
  | vx => exact hread x (by simp [hsrc])
  | vy => exact hread y (by simp [hsrc])

theorem sprite_eq_of_sameInputs {x y : RegIx} (hx : s₁.readV x = s₂.readV x) (hy : s₁.readV y = s₂.readV y)
    (n : Fin 16) : s₁.sprite x y n = s₂.sprite x y n := by
  simp only [State.sprite, State.originX, State.originY, hx, hy, hs.i, hs.fb, hs.straps, memRead_eq_of_sameInputs hs]

end

/-- A block store sees only the registers below its count. -/
theorem storeBlock_congr {v w : RegIx → Byte} {k : Nat} (h : ∀ j, j < k → v (regNumber j) = w (regNumber j))
    (base : Nat) (m : Memory) : storeBlock v base k m = storeBlock w base k m := by
  induction k with
  | zero => rfl
  | succ k ih => rw [storeBlock, storeBlock, ih fun j hj => h j (Nat.lt_succ_of_lt hj), h k (Nat.lt_succ_self k)]

/-- Settles O43: what each kind of change writes is computed from the inputs and the registers the row lists. -/
theorem resultsDependOnListedReadsOnly : Obligations.ResultsDependOnListedReadsOnly := by
  intro i s₁ s₂ t₁ t₂ hpc hi hmem hfb hstraps hread h₁ h₂
  have hs : SameInputs s₁ s₂ := ⟨hpc, hi, hmem, hfb, hstraps⟩
  change SameResults (writesV i) s₁ s₂ t₁ t₂
  cases i with
  | jp nnn => cases h₁; cases h₂; exact sameResults_setPc hs rfl
  | seImm x nn | sneImm x nn =>
    have hx := hread x (by simp [readsV])
    cases h₁; cases h₂
    exact sameResults_skipIf hs (by rw [hx])
  | seReg x y =>
    have hx := hread x (by simp [readsV])
    have hy := hread y (by simp [readsV])
    cases h₁; cases h₂
    exact sameResults_skipIf hs (by rw [hx, hy])
  | ldImm x nn => cases h₁; cases h₂; exact sameResults_writeV_seq hs x rfl
  | addImm x nn =>
    have hx := hread x (by simp [readsV])
    cases h₁; cases h₂
    exact sameResults_writeV_seq hs x (by rw [hx])
  | orReg x y | andReg x y | xorReg x y =>
    have hx := hread x (by simp [readsV])
    have hy := hread y (by simp [readsV])
    cases h₁; cases h₂
    exact sameResults_writeV_seq hs x (by rw [hx, hy])
  | addReg x y | subReg x y | subnReg x y =>
    have hx := hread x (by simp [readsV])
    have hy := hread y (by simp [readsV])
    cases h₁; cases h₂
    exact sameResults_writeResultThenFlag_seq hs x (by rw [hx, hy]) (by rw [hx, hy])
  | shr x y | shl x y =>
    have hsrc := shiftOperand_eq_of_sameInputs hs hread
    cases h₁; cases h₂
    exact sameResults_writeResultThenFlag_seq hs x (by rw [hsrc]) (by rw [hsrc])
  | ldI nnn => cases h₁; cases h₂; exact sameResults_setI_seq hs rfl
  | addI x | ldF x =>
    have hx := hread x (by simp [readsV])
    cases h₁; cases h₂
    exact sameResults_setI_seq hs (by simp only [hx, hi])
  | ldB x =>
    have hx := hread x (by simp [readsV])
    cases h₁; cases h₂
    exact sameResults_setMem_seq hs (by simp [hx, hi, hmem])
  | cls =>
    cases h₁; cases h₂
    exact ⟨by simp [hpc], hi, hmem, rfl, nofun, [.clear], rfl, rfl⟩
  | drw x y n =>
    have hx := hread x (by simp [readsV])
    have hy := hread y (by simp [readsV])
    have hsprite := sprite_eq_of_sameInputs hs hx hy n
    cases h₁; cases h₂
    exact ⟨by simp [hpc], hi, hmem, congrArg Draw.fb hsprite, by simp [writesV, hsprite],
      (s₁.sprite x y n).events ++ [.present], rfl, by simp [hsprite]⟩
  | stBlock x =>
    have hv : ∀ j, j < x.val + 1 → s₁.readV (regNumber j) = s₂.readV (regNumber j) := by
      intro j hj
      have hle : regNumber j ≤ x := by rw [Fin.le_def, regNumber_val (by omega)]; omega
      exact hread _ (by simp [readsV, hle])
    cases h₁; cases h₂
    exact ⟨by simp [hpc], by simp [advanceI_i, hi, hstraps], by simp [storeBlock_congr hv, hi, hmem], by simp [hfb],
      nofun, [], by simp⟩
  | ldBlock x =>
    cases h₁; cases h₂
    refine ⟨by simp [hpc], by simp [advanceI_i, hi, hstraps], by simp [hmem], by simp [hfb], fun r hr => ?_, [],
      by simp⟩
    have hle : r ≤ x := by simpa [writesV] using hr
    rw [ldBlock_readV, ldBlock_readV, if_pos hle, if_pos hle, memRead_eq_of_sameInputs hs, hi]

end Sys2Proof.Machine

/-! SUPPORT. Proofs of the statements about the step request and its answer (spec 40_control_flow.md R110;
60_exceptions.md R232 to R234; 70_reset_and_hazards.md R266, R268). -/

namespace Sys2Proof.Machine

/-! R110: the three branches of a step. -/

theorem step_of_fault {s : State} (hf : s.fault = true) : step s = .next s := if_pos hf

theorem step_of_decodeWord_ok {s : State} {i : Instr} (hf : s.fault = false) (hd : decodeWord s.fetchWord = .ok i) :
    step s = exec i s.markStarted := by
  have hd' : decodeWord s.markStarted.fetchWord = .ok i := hd
  simp only [step, hf, Bool.false_eq_true, if_false, hd']

theorem step_of_decodeWord_error {s : State} {u : Unimplemented} (hf : s.fault = false)
    (hd : decodeWord s.fetchWord = .error u) : step s = .next (s.markStarted.takeFault s.fetchWord) := by
  have hd' : decodeWord s.markStarted.fetchWord = .error u := hd
  simp only [step, hf, Bool.false_eq_true, if_false, hd']
  rfl

/-- R266: the answer of a step, read from the state after it. -/
theorem stepAnswer_of_step {s t : State} (h : step s = .next t) {es : List Event} (hes : t.events = s.events ++ es) :
    s.stepAnswer = some (if t.fault then .fault else .ok, es) := by
  simp only [State.stepAnswer, h, hes, List.drop_left]

/-- Settles O10: the two bytes at pc are the fetched word, and decoding them is decoding it. -/
theorem stepRunsTheDecodedInstruction : Obligations.StepRunsTheDecodedInstruction := by
  intro s i rest hf hd
  cases hw : decodeWord s.fetchWord with
  | ok j =>
    have hj := decode_of_decodeWord hw rest
    obtain rfl : j = i := congrArg Prod.fst (Except.ok.inj (hj.symm.trans hd))
    exact step_of_decodeWord_ok hf hw
  | error u =>
    have hw' : decodeWord (wordOfBytes (s.memRead s.pc.toNat) (s.memRead (s.pc.toNat + 1))) = .error u := hw
    simp [decode, hw'] at hd

theorem length_wordBytes (w : Word) : (wordBytes w).length = 2 := rfl

/-- The word that the host places is the word fetched: its two bytes stand where the fetch reads them. -/
theorem fetchWord_withFetchWord (s : State) (w : Word) : (s.withFetchWord 16 w.toNat).fetchWord = w := by
  have hbyte (j : Nat) (hj : j < (wordBytes w).length) :
      (s.mem.writeBytes s.pc.toNat (wordBytes w)).readByte (s.pc.toNat + j) = (wordBytes w)[j] :=
    readByte_writeBytes_add _ _ _ ((length_wordBytes w).trans_le (by decide)) j hj
  have hhi : (s.mem.writeBytes s.pc.toNat (wordBytes w)).readByte s.pc.toNat = hiByte w := hbyte 0 Nat.two_pos
  have hlo : (s.mem.writeBytes s.pc.toNat (wordBytes w)).readByte (s.pc.toNat + 1) = loByte w := hbyte 1 Nat.one_lt_two
  have hw : BitVec.ofNat 16 (w.toNat % 2 ^ 16) = w := by
    rw [Nat.mod_eq_of_lt w.isLt, BitVec.ofNat_toNat, BitVec.setWidth_eq]
  simp only [State.withFetchWord, hw, State.fetchWord, State.setMem_memRead, State.setMem_pc, hhi, hlo,
    wordOfBytes_hiByte_loByte]

/-- Settles O12: the placed word is fetched, and the step runs what it decodes to. -/
theorem placedWordIsTheNextToRun : Obligations.PlacedWordIsTheNextToRun := by
  intro s w i hf hd
  refine step_of_decodeWord_ok hf ?_
  rw [fetchWord_withFetchWord, hd]

/-- Settles O13: taking the fault writes FAULT, FREC and STARTED, and the record's fields are slices of the word. -/
theorem unimplementedWordTakesTheFault : Obligations.UnimplementedWordTakesTheFault := by
  intro s u hf hd
  have hstep := step_of_decodeWord_error hf hd
  obtain ⟨hcls, hx, hy, hn, hnn, hnnn⟩ := fields_toNat s.fetchWord
  refine ⟨_, hstep, rfl, rfl, rfl, rfl, hcls, hx, hy, hn, hnn, hnnn, ?_, rfl, rfl, ?_⟩
  · exact ⟨fun _ _ => rfl, rfl, fun _ => rfl, ⟨fun _ _ => rfl, rfl⟩, rfl, rfl, rfl, rfl, rfl⟩
  · exact stepAnswer_of_step hstep (List.append_nil _).symm

/-- Settles O14: with the latch set a step is the identity. -/
theorem latchedFaultStopsTheMachine : Obligations.LatchedFaultStopsTheMachine := by
  intro s hf
  refine ⟨step_of_fault hf, ?_, if_pos hf⟩
  rw [stepAnswer_of_step (step_of_fault hf) (List.append_nil _).symm, if_pos hf]

/-- Settles O48: the instruction keeps FAULT at 0, and what it appends to the log is the answer's list. -/
theorem executingStepAnswersOkWithItsEvents : Obligations.ExecutingStepAnswersOkWithItsEvents := by
  intro s i hf hd
  obtain ⟨t, ht, hfault, -⟩ := everyInstructionCompletesAndKeepsControlState i s.markStarted
  obtain ⟨es, hes, -⟩ := exec_replay ht
  have hstep : step s = .next t := (step_of_decodeWord_ok hf hd).trans ht
  refine ⟨t, es, hstep, ht, hes, ?_⟩
  simp [stepAnswer_of_step hstep hes, hfault, hf]

/-- Settles O15: each branch of a step answers next; the latch stays, an instruction leaves it at 0, and the fault is
taken exactly by the words that do not decode. -/
theorem everyStepFinishesAndOnlyUnimplementedWordsFault :
    Obligations.EveryStepFinishesAndOnlyUnimplementedWordsFault := by
  intro s
  have hfamily := rejectedWordsAreTheUnimplementedFamilies s.fetchWord
  by_cases hf : s.fault = true
  · exact ⟨s, step_of_fault hf, by simp [hf]⟩
  · rw [Bool.not_eq_true] at hf
    cases hd : decodeWord s.fetchWord with
    | ok i =>
      obtain ⟨t, ht, hfault, -⟩ := everyInstructionCompletesAndKeepsControlState i s.markStarted
      have hout : ¬ inUnimplementedFamily s.fetchWord := by simp [← hfamily, hd]
      exact ⟨t, (step_of_decodeWord_ok hf hd).trans ht, by simp [hfault, hf, hout]⟩
    | error u => exact ⟨_, step_of_decodeWord_error hf hd, by simp [← hfamily, hd]⟩

/-- Settles O17: the three branches of a step, of which two set STARTED first. -/
theorem stepKeepsStrapsAndSetsStarted : Obligations.StepKeepsStrapsAndSetsStarted := by
  intro s t h
  rcases step_cases h with ⟨hf, rfl⟩ | ⟨hf, i, -, hexec⟩ | ⟨hf, u, -, rfl⟩
  · simp [hf]
  · obtain ⟨-, -, hstarted, hstraps, hloaded⟩ := exec_keepsControl hexec
    simp [hf, hstarted, hstraps, hloaded]
  · simp [hf]

/-- A started machine whose pc is l is left whole by setting both again. -/
theorem jump_markStarted_eq_self {l : Addr} {s : State} (hpc : s.pc = l) (hstarted : s.started = true) :
    s.markStarted.jump l = s := by
  rw [← hpc]
  cases s
  obtain rfl : _ = true := hstarted
  rfl

/-- Settles O18: the parked machine runs its own JP to where it stands. -/
theorem parkedMachineStaysParked : Obligations.ParkedMachineStaysParked := by
  rintro l s ⟨hpc, hd, hf⟩ hstarted
  have hstep : step s = .next s := by
    rw [step_of_decodeWord_ok hf hd, exec_jp, jump_markStarted_eq_self hpc hstarted]
  refine ⟨hstep, ?_⟩
  rw [stepAnswer_of_step hstep (List.append_nil _).symm, show s.fault = false from hf]
  rfl

end Sys2Proof.Machine

/-! SUPPORT. Proofs of the statements about reset and the loader, and of the three invariants (spec 10_state.md R34;
70_reset_and_hazards.md R260 to R264; 44_display.md R192; 60_exceptions.md R232, R233). -/

namespace Sys2Proof.Machine

/-! R57: the bytes of a FONT. -/

theorem length_fontBytes (font : Font) : (fontBytes font).length = 80 := by
  simp [fontBytes]

theorem getElem_fontBytes (font : Font) (a : Nat) (h : a < (fontBytes font).length) :
    (fontBytes font)[a] = fontByte font a := by
  simp [fontBytes]

/-- Byte 5g + k of a FONT is row k of glyph g. -/
theorem fontByte_glyph (font : Font) (g : Fin 16) (k : Fin 5) : fontByte font (5 * g.val + k.val) = font[g][k] := by
  have hg : (5 * g.val + k.val) / 5 = g.val := by omega
  have hk : (5 * g.val + k.val) % 5 = k.val := by omega
  have hlt : 5 * g.val + k.val < 16 * 5 := by omega
  simp [fontByte, hlt, hg, hk]

theorem fontByte_of_le (font : Font) {a : Nat} (h : 80 ≤ a) : fontByte font a = 0 :=
  dif_neg (Nat.not_lt_of_le h)

/-! R34, R260: memory after a reset. -/

/-- The FONT below address 80, zero from there on. -/
theorem resetWith_memRead (straps : Straps) (font : Font) (a : Nat) :
    (State.resetWith straps font).memRead a = fontByte font (ea a) := by
  have hread := Memory.readByte_writeBytes [] fontBase (fontBytes font) (by rw [length_fontBytes]; decide) a
  refine hread.trans ?_
  split
  · exact getElem_fontBytes font (ea a) _
  · rename_i h
    have hge : 80 ≤ ea a := by simpa [length_fontBytes] using h
    rw [fontByte_of_le font hge]
    exact fontByte_of_le fontDefault hge

/-- A run of the bytes that unlisted addresses read as lists nothing. -/
theorem writeBytes_nil_of_unlisted (a : Nat) (bs : List Byte)
    (h : ∀ (j : Nat) (hj : j < bs.length), bs[j] = Memory.unlisted (ea (a + j))) : Memory.writeBytes [] a bs = [] := by
  induction bs generalizing a with
  | nil => rfl
  | cons b bs ih =>
    have hb : b = Memory.unlisted (ea a) := h 0 (Nat.succ_pos _)
    have hhead : Memory.writeByte [] a b = [] := by simp [Memory.writeByte, Memory.write, hb]
    rw [Memory.writeBytes, hhead]
    refine ih (a + 1) fun j hj => ?_
    rw [Nat.add_right_comm]
    exact h (j + 1) (Nat.succ_lt_succ hj)

/-- The default FONT is what unlisted addresses read as, so placing it lists nothing. -/
theorem reset_eq_resetWith : State.reset = State.resetWith strapsDefault fontDefault := by
  have hmem : Memory.writeBytes [] fontBase (fontBytes fontDefault) = [] := by
    refine writeBytes_nil_of_unlisted _ _ fun j hj => ?_
    have hlt : j < 80 := by rwa [length_fontBytes] at hj
    have hea : ea (fontBase + j) = j := by simp only [ea, fontBase_eq, memSize_eq]; omega
    rw [getElem_fontBytes, hea, Memory.unlisted]
  rw [State.resetWith, hmem]
  rfl

/-- Settles O7: reset writes every field to its start value, and memory holds the FONT and nothing else. -/
theorem resetGivesTheStartState : Obligations.ResetGivesTheStartState := by
  refine ⟨fun s straps font => ⟨_, rfl, rfl, pixel_fbBlank, fun r => ?_, rfl, fun g k => ?_, fun a h80 h4096 => ?_,
    rfl, rfl, rfl, rfl, rfl⟩, reset_eq_resetWith⟩
  · simp [State.readV, State.resetWith, State.reset, vReset]
  · have hea : ea (5 * g.val + k.val) = 5 * g.val + k.val := by simp only [ea, memSize_eq]; omega
    rw [resetWith_memRead, hea, fontByte_glyph]
  · have hea : ea a = a := Nat.mod_eq_of_lt h4096
    rw [resetWith_memRead, hea, fontByte_of_le font h80]

/-! R263, R264: the loader. -/

/-- A fitting image on a clean machine is placed. -/
theorem load_of_fits {s : State} {image : List Byte} (hstarted : s.started = false) (hloaded : s.loaded = false)
    (hlen : image.length ≤ progMax) : s.load image = .next (s.setMem (s.mem.writeBytes progBase image)).markLoaded := by
  simpa [State.load, hstarted, hloaded, imageWellFormed] using hlen

/-- Settles O8: the image fits between 0x200 and the top of memory, so it does not wrap; and a machine with nothing
placed fetches two zero bytes. -/
theorem loaderPlacesTheImage : Obligations.LoaderPlacesTheImage := by
  refine ⟨fun s image hstarted hloaded hlen => ⟨_, load_of_fits hstarted hloaded hlen, fun j hj => ?_, fun a ha => ?_,
    fun _ _ => rfl, rfl, rfl, ⟨fun _ _ => rfl, rfl⟩, rfl, rfl, rfl, rfl, rfl⟩, ?_⟩
  · exact readByte_writeBytes_add s.mem progBase image (by rw [memSize_eq]; omega) j hj
  · refine readByte_writeBytes_ne s.mem progBase image a fun j hj => ?_
    simp only [ea, memSize_eq, progBase_eq] at ha ⊢
    omega
  · have hload : State.reset.load [] = .next State.reset.markLoaded := load_of_fits rfl rfl (Nat.zero_le _)
    have hword : State.reset.markLoaded.fetchWord = 0x0000 := by decide
    refine ⟨_, _, hload, step_of_decodeWord_error rfl (u := .class0) ?_, rfl, rfl, hword⟩
    rw [hword]
    rfl

/-- Settles O9: the three tests of the loader, in their order. -/
theorem loaderRefusesWhatItMust : Obligations.LoaderRefusesWhatItMust := by
  intro s image
  refine ⟨fun hstarted => ?_, fun hstarted hloaded => ?_, fun hstarted hloaded hlen => ?_⟩
  · exact if_pos hstarted
  · simp [State.load, hstarted, hloaded]
  · have hlong : imageWellFormed image = false := decide_eq_false (Nat.not_le_of_lt hlen)
    simp [State.load, hstarted, hloaded, hlong]

/-! The three invariants: at reset, through a load, through a step. -/

/-- A machine without a latched fault has no record to fit. -/
theorem faultRecordFits_of_fault_eq_false {s : State} (hf : s.fault = false) : FaultRecordFits s := fun h =>
  absurd h (by simp [hf])

/-- Settles O45: reset places bytes in an empty memory, blanks the picture with no event, and clears the latch. -/
theorem invariantsHoldAfterReset : Obligations.InvariantsHoldAfterReset :=
  ⟨⟨Memory.wf_nil, rfl, faultRecordFits_of_fault_eq_false rfl⟩, fun _ font =>
    ⟨Memory.wf_writeBytes Memory.wf_nil fontBase (fontBytes font), rfl, faultRecordFits_of_fault_eq_false rfl⟩⟩

/-- Settles O49: a load writes memory cell by cell and no picture or event; and it is taken only by a machine that has
not started, in which a fitting record means that no fault is latched. -/
theorem loadKeepsTheInvariants : Obligations.LoadKeepsTheInvariants := by
  intro s image t h
  obtain ⟨hstarted, -, -, rfl⟩ := load_cases h
  refine ⟨fun hwf => Memory.wf_writeBytes hwf progBase image, id, fun hfits hf => ?_⟩
  obtain ⟨hstarted', -⟩ := hfits hf
  simp [hstarted] at hstarted'

/-- Settles O40: only LD B and LD [I] write memory, and every cell write keeps the form. -/
theorem stepKeepsMemoryCanonical : Obligations.StepKeepsMemoryCanonical := by
  intro s t hwf h
  rcases step_cases h with ⟨-, rfl⟩ | ⟨-, i, -, hexec⟩ | ⟨-, u, -, rfl⟩
  · exact hwf
  · exact exec_wf_mem hexec hwf
  · exact hwf

/-- Settles O35: the events a step appends lead the Sink from the framebuffer before it to the one after it. -/
theorem stepKeepsTheSinkInAgreement : Obligations.StepKeepsTheSinkInAgreement := by
  intro s t hagrees h
  rcases step_cases h with ⟨-, rfl⟩ | ⟨-, i, -, hexec⟩ | ⟨-, u, -, rfl⟩
  · exact hagrees
  · obtain ⟨es, hes, hreplay⟩ := exec_replay hexec
    calc Sink.replay fbBlank t.events
      _ = Sink.replay (Sink.replay fbBlank s.events) es := by rw [hes, ← replay_append]; rfl
      _ = Sink.replay s.fb es := by rw [show Sink.replay fbBlank s.events = s.fb from hagrees]
      _ = t.fb := hreplay
  · exact hagrees

/-- Settles O44: a latched machine stays as it is, an instruction runs and leaves the latch at 0, and taking the fault
records the word that it leaves at pc. -/
theorem stepKeepsTheFaultRecordFitting : Obligations.StepKeepsTheFaultRecordFitting := by
  intro s t hfits h
  rcases step_cases h with ⟨-, rfl⟩ | ⟨hf, i, -, hexec⟩ | ⟨-, u, hd, rfl⟩
  · exact hfits
  · obtain ⟨hfault, -⟩ := exec_keepsControl hexec
    exact faultRecordFits_of_fault_eq_false (hfault.trans hf)
  · exact fun _ => ⟨rfl, rfl, (rejectedWordsAreTheUnimplementedFamilies _).mp ⟨u, hd⟩⟩

/-- Settles O46: by induction on the requests that led to the state. -/
theorem reachableStatesMeetTheInvariants : Obligations.ReachableStatesMeetTheInvariants := by
  intro s hs
  induction hs with
  | reset straps font => exact invariantsHoldAfterReset.2 straps font
  | load image _ hload ih =>
    obtain ⟨hwf, hsink, hrecord⟩ := ih
    obtain ⟨keepsWf, keepsSink, keepsRecord⟩ := loadKeepsTheInvariants _ image _ hload
    exact ⟨keepsWf hwf, keepsSink hsink, keepsRecord hrecord⟩
  | step _ hstep ih =>
    obtain ⟨hwf, hsink, hrecord⟩ := ih
    exact ⟨stepKeepsMemoryCanonical _ _ hwf hstep, stepKeepsTheSinkInAgreement _ _ hsink hstep,
      stepKeepsTheFaultRecordFitting _ _ hrecord hstep⟩

end Sys2Proof.Machine
